-- ==== Sys2Proof/Word.lean ====
section
/-! DEFINITION. The word types of FBCORE: the widths that rule R7 fixes. -/

namespace Sys2Proof

/-- A byte of a frame buffer (R8). -/
abbrev Byte := BitVec 8

/-- A 128-bit command word (R41). -/
abbrev CommandWord := BitVec 128

/-- The 16-bit colour operand (R7, R44). -/
abbrev Colour := BitVec 16

/-- The 32-bit value operand, and the DATA of a response (R7, R50). -/
abbrev Value := BitVec 32

/-- A logical coordinate pair: integers, as R43 reads them and R77 computes them. -/
abbrev Pixel := Int × Int

end Sys2Proof
end

