-- ==== Sys2Proof/Config.lean ====
section
/-! DEFINITION. The parameters a model of FBCORE takes (R5). Whatever is proved for every `Config` holds for every
value of them; `Config.default` is the default column of R5's table. -/

namespace Sys2Proof

/-- Which display-mode values the mode commands accept (R5, R57). -/
inductive ModePolicy where
  | permissive
  | strict
deriving DecidableEq, Repr

/-- Which reading of the odd-rotation formulas the translator uses (R5, R64, R66). -/
inductive RotVariant where
  | logical
  | literal
deriving DecidableEq, Repr

/-- The six parameters of R5. -/
structure Config where
  /-- PW, the physical panel width in pixels. -/
  pw : Nat
  /-- PH, the physical panel height in pixels. -/
  ph : Nat
  /-- CLEAR_FILL_MONO, the byte a clear of the Monochrome buffer writes. -/
  clearFillMono : Byte
  /-- CLEAR_FILL_GRAY, the byte a clear of the Grayscale buffer writes. -/
  clearFillGray : Byte
  /-- MODE_POLICY. -/
  modePolicy : ModePolicy
  /-- ROT_VARIANT. -/
  rotVariant : RotVariant
deriving DecidableEq, Repr

/-- The legal values of R5: 8 ≤ PW ≤ 32767 with PW mod 8 = 0, and 1 ≤ PH ≤ 32767. -/
abbrev Config.legal (c : Config) : Prop :=
  8 ≤ c.pw ∧ c.pw ≤ 32767 ∧ c.pw % 8 = 0 ∧ 1 ≤ c.ph ∧ c.ph ≤ 32767

/-- The defaults of R5. PH = 600 is marked there as general knowledge (log 1). -/
def Config.default : Config where
  pw := 800
  ph := 600
  clearFillMono := 0x00#8
  clearFillGray := 0x00#8
  modePolicy := .permissive
  rotVariant := .logical

end Sys2Proof
end

