-- ==== Sys2Proof/Machine/Geometry.lean ====
section
/-! DEFINITION. What follows from the parameters alone: the buffer geometry of R6 and the logical dimensions of R17. -/

namespace Sys2Proof

/-- MSTRIDE, the Monochrome row stride in bytes (R6). -/
def Config.mstride (c : Config) : Nat := c.pw / 8

/-- GSTRIDE, the Grayscale row stride in bytes (R6; 90_conflicts.md C2). -/
def Config.gstride (c : Config) : Nat := c.pw / 2

/-- MSIZE, the Monochrome buffer's size in bytes (R6). -/
def Config.msize (c : Config) : Nat := c.mstride * c.ph

/-- GSIZE, the Grayscale buffer's size in bytes (R6). -/
def Config.gsize (c : Config) : Nat := c.gstride * c.ph

/-- `r` is 0 or 2, a rotation that keeps the physical dimensions in place (R17). -/
def evenRotation (r : BitVec 2) : Bool := decide (r = 0#2) || decide (r = 2#2)

/-- The logical width that `dims` of R17 gives rotation `r`. -/
def Config.logicalWidth (c : Config) (r : BitVec 2) : BitVec 16 :=
  BitVec.ofNat 16 (if evenRotation r then c.pw else c.ph)

/-- The logical height that `dims` of R17 gives rotation `r`. -/
def Config.logicalHeight (c : Config) (r : BitVec 2) : BitVec 16 :=
  BitVec.ofNat 16 (if evenRotation r then c.ph else c.pw)

end Sys2Proof
end

