-- ==== Sys2Proof/Machine/Memory.lean ====
section
/-! DEFINITION. A frame buffer as plain data (R20, R25): a list of (index, byte) cells, indices strictly rising, no cell
equal to what an unlisted index reads as. -/

namespace Sys2Proof.Machine

/-- A byte-addressed buffer with a flat index (R25). -/
abbrev Memory := List Host.Cell

/-- What an index with no cell reads as: 0x00, the reset contents of both buffers (R20, R107; log 16). -/
def unlistedByte : Byte := 0x00#8

/-- The byte at index `i`. -/
def Memory.read : Memory → Nat → Byte
  | [], _ => unlistedByte
  | (a, b) :: m, i => if a = i then b else Memory.read m i

/-- A cell list with `v` at `i` put in front of `m`, in the canonical form: a byte that an unlisted index reads as
has no cell. -/
def Memory.cellBefore (i : Nat) (v : Byte) (m : Memory) : Memory := if v = unlistedByte then m else (i, v) :: m

/-- `m` with the byte at index `i` set to `v`. -/
def Memory.write : Memory → Nat → Byte → Memory
  | [], i, v => Memory.cellBefore i v []
  | (a, b) :: m, i, v =>
    if i < a then Memory.cellBefore i v ((a, b) :: m)
    else if i = a then Memory.cellBefore i v m
    else (a, b) :: Memory.write m i v

/-- A buffer of `size` bytes that all hold `v` (R33). -/
def Memory.filled (size : Nat) (v : Byte) : Memory :=
  if v = unlistedByte then [] else (List.range size).map fun i => (i, v)

/-- The cells from index `lo` on are in the canonical form and lie below `size`. -/
def Memory.canonicalFrom (size : Nat) : Nat → Memory → Bool
  | _, [] => true
  | lo, (a, b) :: m =>
    decide (lo ≤ a) && decide (a < size) && decide (b ≠ unlistedByte) && Memory.canonicalFrom size (a + 1) m

/-- The canonical form of a buffer of `size` bytes: indices strictly rising and below `size` (R25), no cell equal to
what an unlisted index reads as. -/
def Memory.wf (size : Nat) (m : Memory) : Bool := Memory.canonicalFrom size 0 m

/-- The byte sequence B[0], …, B[size - 1] (R30). -/
def Memory.bytes (size : Nat) (m : Memory) : List Byte := (List.range size).map fun i => Memory.read m i

end Sys2Proof.Machine
end

