-- ==== Sys2Proof/Machine/Reset.lean ====
section
/-! DEFINITION. The reset values of R107, one definition each, which `State.reset` puts together. -/

namespace Sys2Proof.Machine

/-- ROT after reset: 0 (R16, R107). -/
def resetRot : BitVec 2 := 0#2

/-- MODE after reset: -1, UNINIT (R18, R107). -/
def resetMode : BitVec 32 := 0xFFFFFFFF#32

/-- A buffer after reset: every byte 0x00, FBCORE's own fill and no panel-driver clear (R20, R107). -/
def resetBuffer (size : Nat) : Memory := Memory.filled size 0x00#8

end Sys2Proof.Machine
end

