-- ==== Sys2Proof/Syntax.lean ====
section
/-! DEFINITION. The sixteen commands of FBCORE (R46), with the operands R43, R44 and R45 read from the command word. -/

namespace Sys2Proof

/-- One constructor per row of the opcode map (R46). Coordinates and lengths are the integers that `sext_16` yields
(R43); a colour is its 16-bit field (R44); a rotation value or mode is the 32-bit field VAL (R45). -/
inductive Instr where
  /-- WRITE_PIXEL x, y, color (R71). -/
  | writePixel (x y : Int) (color : Colour)
  /-- DRAW_PIXEL x, y, color (R72). -/
  | drawPixel (x y : Int) (color : Colour)
  /-- WRITE_FAST_HLINE x, y, w, color (R80). -/
  | writeFastHLine (x y w : Int) (color : Colour)
  /-- WRITE_FAST_VLINE x, y, h, color (R81). -/
  | writeFastVLine (x y h : Int) (color : Colour)
  /-- WRITE_FILL_RECT x, y, w, h, color (R79). -/
  | writeFillRect (x y w h : Int) (color : Colour)
  /-- WRITE_LINE x0, y0, x1, y1, color (R83). -/
  | writeLine (x0 y0 x1 y1 : Int) (color : Colour)
  /-- START_WRITE (R84). -/
  | startWrite
  /-- END_WRITE (R85). -/
  | endWrite
  /-- SET_ROTATION value (R55). -/
  | setRotation (value : Value)
  /-- GET_ROTATION (R56). -/
  | getRotation
  /-- SET_DISPLAY_MODE mode (R58). -/
  | setDisplayMode (mode : Value)
  /-- SELECT_DISPLAY_MODE mode (R59). -/
  | selectDisplayMode (mode : Value)
  /-- GET_DISPLAY_MODE (R60). -/
  | getDisplayMode
  /-- GET_WIDTH (R61). -/
  | getWidth
  /-- GET_HEIGHT (R62). -/
  | getHeight
  /-- SHOW (R88). -/
  | showBuffer
deriving DecidableEq, Repr

end Sys2Proof
end

