-- ==== Sys2Proof/Machine/State.lean ====
section
/-! DEFINITION. The state of FBCORE (10_state.md) as plain data, the reasons it stops, and reset. -/

namespace Sys2Proof.Machine

/-- Why the machine stops. No reason is raised by a command in a state that reset reaches while the panel driver
completes its requests (R110, R116). -/
inductive Fault where
  /-- Raised by the step from a busy state: the panel driver never completed a clear or commit, so FBCORE stays busy
  for good, accepts no command and gives no response (R116, a stuck state). Safe: nothing can be proved of what
  follows. -/
  | panelNeverCompletes
  /-- Raised by an access to a buffer index outside [0, size), which does not exist (R25). The packers raise it only
  where LW and LH are not those of ROT, which no run reaches. Safe. -/
  | bufferIndexOutOfRange
  /-- Raised by an observation-port read of a buffer byte while INIT = FAILED, when the buffers hold no value (R101,
  R108). No step raises it. Safe. -/
  | bufferHoldsNoValue
deriving DecidableEq, Repr

/-- What the model rejects. -/
inductive Refusal where
  /-- An instruction of the opcode table with no meaning yet: raised by `exec` alone. Safe. -/
  | notModelled (mnemonic : String)
  /-- Raised by an observation-port read while FBCORE is busy, which R113 lets a model refuse. No step raises it.
  Safe. -/
  | observedWhileBusy
deriving DecidableEq, Repr

/-- INIT, the initialisation-state register (R19): one bit, READY = 1 and FAILED = 0. -/
inductive InitState where
  | failed
  | ready
deriving DecidableEq, Repr

/-- Which buffer: `mono` is MB, `gray` is GB (R20, R97). -/
inductive BufferSel where
  | mono
  | gray
deriving DecidableEq, Repr

/-- The status codes of R90. -/
inductive Status where
  | ok
  | illegalOpcode
  | reservedNonzero
  | notInitialised
  | invalidMode
  | physOutOfRange
deriving DecidableEq, Repr

/-- A response: STATUS and DATA (R50). -/
structure Response where
  status : Status
  data : Value
deriving DecidableEq, Repr

/-- One event of the commit trace (R87). The byte sequence handed over is `CommitEvent.bytes`; the event holds it in
the buffer's own canonical form (log 11). -/
structure CommitEvent where
  /-- MONO when MB was committed, GRAY when GB was. -/
  sel : BufferSel
  /-- The number of bytes handed over. -/
  size : Nat
  /-- The buffer as it stood when the command started. -/
  image : Memory
deriving DecidableEq, Repr

/-- Everything FBCORE holds, and the ports the model reads and writes in a step. -/
structure State where
  /-- The parameters of R5: arguments of the model, written by no step (R24; log 1). -/
  cfg : Config
  /-- ROT, the rotation register (R16). -/
  rot : BitVec 2
  /-- LW, the logical width register (R17). -/
  lw : BitVec 16
  /-- LH, the logical height register (R17). -/
  lh : BitVec 16
  /-- MODE, the display-mode register (R18). -/
  mode : BitVec 32
  /-- INIT, the initialisation-state register (R19). -/
  init : InitState
  /-- MB, the Monochrome buffer (R20). -/
  mb : Memory
  /-- GB, the Grayscale buffer (R20). -/
  gb : Memory
  /-- Busy, from the acceptance of a command to its response (R23). -/
  busy : Bool
  /-- The command words presented and not yet accepted, oldest first (R14, R36, R112; log 2). -/
  port : List CommandWord
  /-- The responses given so far, oldest first: the host's record, which FBCORE does not keep (R15, R50; log 7). -/
  responses : List Response
  /-- The commit trace, oldest first (R87). -/
  commits : List CommitEvent
  /-- How many further clear and commit requests the panel driver completes, `none` if every one (R97, R116; log 5). -/
  pdServes : Option Nat
deriving DecidableEq, Repr

/-- The allocation outcome as INIT records it (R106): READY only where both buffers were allocated. -/
def initAfterAllocation (allocOkMono allocOkGray : Bool) : InitState :=
  if allocOkMono && allocOkGray then .ready else .failed

/-- The machine right after the construction reset (R105 to R108), for any parameters and any allocation outcome.
After a failed allocation the registers take the same values and the buffers hold no value (R108; log 9). -/
def State.resetWith (c : Config) (allocOkMono allocOkGray : Bool) : State where
  cfg := c
  rot := resetRot
  lw := c.logicalWidth resetRot
  lh := c.logicalHeight resetRot
  mode := resetMode
  init := initAfterAllocation allocOkMono allocOkGray
  mb := resetBuffer c.msize
  gb := resetBuffer c.gsize
  busy := false
  port := []
  responses := []
  commits := []
  pdServes := none

/-- The machine right after a successful reset with the default parameters (R5, R107; log 1, log 8). -/
def State.reset : State := State.resetWith Config.default true true

end Sys2Proof.Machine
end

