-- ==== Sys2Proof/Machine/Flags.lean ====
section
/-! DEFINITION. FBCORE has no flags (R15): its one condition output is the STATUS of the response to each command. This
file holds the codes of R90, the bit form of a response (R50) and `respond` itself. -/

namespace Sys2Proof.Machine

/-- The code column of R90. -/
def Status.code : Status → BitVec 8
  | .ok => 0x00#8
  | .illegalOpcode => 0x01#8
  | .reservedNonzero => 0x02#8
  | .notInitialised => 0x03#8
  | .invalidMode => 0x04#8
  | .physOutOfRange => 0x05#8

/-- The 40-bit response word: STATUS in [39:32], DATA in [31:0] (R50). -/
def Response.word (r : Response) : BitVec 40 := r.status.code ++ r.data

/-- `respond(status, data)` of R10 and R50: gives one response and makes FBCORE ready for the next command. -/
def State.respond (st : Status) (data : Value) (s : State) : State :=
  { s with responses := s.responses ++ [⟨st, data⟩], busy := false }

end Sys2Proof.Machine
end

