-- ==== Sys2Proof/Machine/Operands.lean ====
section
/-! DEFINITION. What the commands make of their operands and of the registers they test: the rotation mask (R45), the
mode classes (R18) and mode validity (R57), the colour tests of the two packers (R44). -/

namespace Sys2Proof.Machine

/-- `VAL & 3`, the rotation a value operand stands for (R45, R55). -/
def maskedRotation (value : Value) : BitVec 2 := (value &&& 3#32).setWidth 2

/-- MODE = -1, UNINIT (R18). -/
def modeUninit : BitVec 32 := 0xFFFFFFFF#32
/-- MODE = 1, MONO (R18). -/
def modeMono : BitVec 32 := 1#32
/-- MODE = 3, GRAY (R18). -/
def modeGray : BitVec 32 := 3#32

/-- `m ∈ {-1, 1, 3}`, the closed set of R57. -/
def namedMode (m : BitVec 32) : Bool := decide (m = modeUninit) || decide (m = modeMono) || decide (m = modeGray)

/-- `valid(m)` of R57. -/
def validMode (p : ModePolicy) (m : BitVec 32) : Bool :=
  match p with
  | .permissive => true
  | .strict => namedMode m

/-- The buffer a display mode owns on a clear and on a commit: MB for mode 1, GB for every other value (R53, R59,
R88). -/
def bufferOfMode (m : BitVec 32) : BufferSel := if m = modeMono then .mono else .gray

/-- The Monochrome test `color ≠ 0`, over all 16 bits (R44, R68). -/
def colourSets (c : Colour) : Bool := decide (c ≠ 0#16)

/-- The Grayscale level `color & 7`, as a byte (R44, R69). -/
def colourLevel (c : Colour) : Byte := (c &&& 7#16).setWidth 8

end Sys2Proof.Machine
end

