-- ==== Sys2Proof/Machine/Packers.lean ====
section
/-! DEFINITION. The pixel layouts of R27 and R28 and the byte functions of the two packers (R68, R69), with the read-back
functions of R75. -/

namespace Sys2Proof

/-- mbyte(x0, y0) of R27. -/
def Config.mbyte (c : Config) (x0 y0 : Nat) : Nat := c.mstride * y0 + x0 / 8

/-- gbyte(x0, y0) of R28. -/
def Config.gbyte (c : Config) (x0 y0 : Nat) : Nat := c.gstride * y0 + x0 / 2

end Sys2Proof

namespace Sys2Proof.Machine

/-- mbit(x0) of R27: the bit number within the byte. -/
def mbit (x0 : Nat) : Nat := 7 - x0 % 8

/-- MMASK[p] = 0x80 >> p of R27. -/
def mmask (p : Nat) : Byte := 0x80#8 >>> p

/-- gshift(x0) of R28: the low bit of the pixel's nibble. -/
def gshift (x0 : Nat) : Nat := if x0 % 2 = 0 then 4 else 0

/-- GKEEP[q] of R28: the bits of the byte that the pixel does not own. -/
def gkeep (q : Nat) : Byte := if q = 0 then 0x0F#8 else 0xF0#8

/-- The byte the 1-bit packer writes back for the byte `b` it read (R68). -/
def packMono (x0 : Nat) (c : Colour) (b : Byte) : Byte :=
  if colourSets c then b ||| mmask (x0 % 8) else b &&& ~~~ mmask (x0 % 8)

/-- The byte the 4-bit packer writes back for the byte `b` it read (R69). -/
def packGray (x0 : Nat) (c : Colour) (b : Byte) : Byte := (b &&& gkeep (x0 % 2)) ||| (colourLevel c <<< gshift x0)

/-- MPix of a byte (R75): the pixel's bit. -/
def monoPixelOf (x0 : Nat) (b : Byte) : Byte := (b >>> mbit x0) &&& 1#8

/-- GPix of a byte (R75): the pixel's level. -/
def grayPixelOf (x0 : Nat) (b : Byte) : Byte := (b >>> gshift x0) &&& 7#8

/-- GRsv of a byte (R75): the reserved bit of the pixel's nibble (R29). -/
def grayReservedOf (x0 : Nat) (b : Byte) : Byte := (b >>> (gshift x0 + 3)) &&& 1#8

end Sys2Proof.Machine
end

