-- ==== Sys2Proof/Machine/Pixels.lean ====
section
/-! DEFINITION. The pixel lists of the derived primitives (R78, R82). A list depends on the operands alone, and all
arithmetic is exact (R77). -/

namespace Sys2Proof.Machine

/-- One row of a rectangle: `w` pixels from (x, y) in +x. -/
def rowPixels (x y : Int) (w : Nat) : List Pixel := (List.range w).map fun (i : Nat) => (x + i, y)

/-- RectPixels of R78: rows outer, columns inner; empty where a side is not positive. -/
def rectPixels (x y w h : Int) : List Pixel :=
  if w ≤ 0 ∨ h ≤ 0 then [] else (List.range h.toNat).flatMap fun (j : Nat) => rowPixels x (y + j) w.toNat

/-- The pixel a Bresenham step appends: un-transposed where the line is steep (R82). -/
def linePixel (steep : Bool) (x y : Int) : Pixel := if steep then (y, x) else (x, y)

/-- The loop of R82, for the `n` values of x that remain. -/
def lineLoop (steep : Bool) (dx dy ystep : Int) : Nat → Int → Int → Int → List Pixel
  | 0, _, _, _ => []
  | n + 1, x, y, err =>
    linePixel steep x y ::
      (if err - dy < 0 then lineLoop steep dx dy ystep n (x + 1) (y + ystep) (err - dy + dx)
       else lineLoop steep dx dy ystep n (x + 1) y (err - dy))

/-- The line from (xa, ya) to (xb, yb) with xa ≤ xb, from `dx <- xb - xa` on (R82). -/
def lineRightward (steep : Bool) (xa ya xb yb : Int) : List Pixel :=
  lineLoop steep (xb - xa) |yb - ya| (if ya < yb then 1 else -1) ((xb - xa).toNat + 1) xa ya ((xb - xa) / 2)

/-- The line after the transpose: the endpoints swapped so that it steps left to right (R82). -/
def lineOrdered (steep : Bool) (xa ya xb yb : Int) : List Pixel :=
  if xa > xb then lineRightward steep xb yb xa ya else lineRightward steep xa ya xb yb

/-- LinePixels of R82. -/
def linePixels (xa ya xb yb : Int) : List Pixel :=
  if |yb - ya| > |xb - xa| then lineOrdered true ya xa yb xb else lineOrdered false xa ya xb yb

end Sys2Proof.Machine
end

