-- ==== Sys2Proof/Machine/Ops.lean ====
section
/-! DEFINITION. The shared operations of the commands: buffer access (R25, R32), the bounds checker (R63), the translator
(R64, R66), the dispatch and WritePixel (R67 to R70), the expander (R77), the panel-driver requests (R33, R87, R97), and
the end of a command (R10, R99). FBCORE has no trap entry and no return from one (R99, R100): `Effect.finish` is the one
place where a raised status turns into the response that R99 describes. -/

namespace Sys2Proof.Machine

/-- What a command's body comes to, before it answers. -/
inductive Effect where
  /-- It went on, with this state. -/
  | go (s : State)
  /-- It ended with `raise S(info)`; what it wrote before stays written (R10). -/
  | raised (st : Status) (info : Value) (s : State)
  /-- It waits for a panel driver that never completes (R116). -/
  | waiting (s : State)
  /-- It made an access that does not exist. -/
  | fault (f : Fault)
deriving DecidableEq, Repr

/-- The end of a command (R10, R50, R99): OK with DATA 0 where its body went on, the raised status and its info where
it raised one, no response and busy for good where it waits for ever (R116). -/
def Effect.finish : Effect → Host.Outcome State Fault Refusal
  | .go s => .next (s.respond .ok 0#32)
  | .raised st info s => .next (s.respond st info)
  | .waiting s => .next { s with busy := true }
  | .fault f => .fault f

/-- A command's answer to a machine whose reset failed to allocate: NOT_INITIALISED, no effect (R49, R93, R108);
otherwise its own effect. -/
def whenReady (s : State) (body : Host.Outcome State Fault Refusal) : Host.Outcome State Fault Refusal :=
  match s.init with
  | .failed => .next (s.respond .notInitialised 0#32)
  | .ready => body

/-! ### The buffers -/

/-- The buffer that `sel` names (R20). -/
def State.buffer (s : State) : BufferSel → Memory
  | .mono => s.mb
  | .gray => s.gb

/-- The size in bytes of the buffer that `sel` names (R25). -/
def State.bufferSize (s : State) : BufferSel → Nat
  | .mono => s.cfg.msize
  | .gray => s.cfg.gsize

/-- `s` with the buffer that `sel` names replaced. -/
def State.withBuffer (s : State) (m : Memory) : BufferSel → State
  | .mono => { s with mb := m }
  | .gray => { s with gb := m }

/-- MemRead(B, i, 1) of R10 and R25, for an index that exists. -/
def State.memRead (s : State) (sel : BufferSel) (i : Nat) : Byte := (s.buffer sel).read i

/-- MemWrite(B, i, 1, v) of R10 and R25, for an index that exists. -/
def State.memWrite (s : State) (sel : BufferSel) (i : Nat) (v : Byte) : State :=
  s.withBuffer ((s.buffer sel).write i v) sel

/-- One byte of a buffer read, changed and written back (R32); an index outside the buffer does not exist (R25). -/
def modifyByte (sel : BufferSel) (i : Nat) (f : Byte → Byte) (s : State) : Effect :=
  if i < s.bufferSize sel then .go (s.memWrite sel i (f (s.memRead sel i))) else .fault .bufferIndexOutOfRange

/-! ### The pixel write -/

/-- inBounds(x, y) of R63. -/
def State.inBounds (s : State) (x y : Int) : Bool :=
  decide (0 ≤ x) && decide (x < s.lw.toNat) && (decide (0 ≤ y) && decide (y < s.lh.toNat))

/-- The rotation transform against a width `w` and a height `h` that the formulas name: with LW and LH it is Xlate of
R64. -/
def rotatePixel (r : BitVec 2) (w h x y : Int) : Pixel :=
  if r = 0#2 then (x, y)
  else if r = 1#2 then (h - 1 - y, x)
  else if r = 2#2 then (w - 1 - x, h - 1 - y)
  else (y, w - 1 - x)

/-- Xlate(x, y) of R64. -/
def State.xlate (s : State) (x y : Int) : Pixel := rotatePixel s.rot s.lw.toNat s.lh.toNat x y

/-- The transform of XlateLit of R66, before its range check: the formulas with PW and PH. -/
def State.xlateLit (s : State) (x y : Int) : Pixel := rotatePixel s.rot s.cfg.pw s.cfg.ph x y

/-- 0 ≤ x0 < PW and 0 ≤ y0 < PH (R66). -/
def Config.onPanel (c : Config) (p : Pixel) : Bool :=
  decide (0 ≤ p.1) && decide (p.1 < c.pw) && (decide (0 ≤ p.2) && decide (p.2 < c.ph))

/-- The DATA of PHYS_OUT_OF_RANGE: {y0 mod 2^16, x0 mod 2^16} (R66, R95). -/
def physInfo (p : Pixel) : Value := BitVec.ofInt 16 p.2 ++ BitVec.ofInt 16 p.1

/-- MonoPack of R68. -/
def monoPack (x0 y0 : Nat) (c : Colour) (s : State) : Effect := modifyByte .mono (s.cfg.mbyte x0 y0) (packMono x0 c) s

/-- GrayPack of R69. -/
def grayPack (x0 y0 : Nat) (c : Colour) (s : State) : Effect := modifyByte .gray (s.cfg.gbyte x0 y0) (packGray x0 c) s

/-- Dispatch of R67, on a physical pixel, whose coordinates are not negative (R9). -/
def dispatchPixel (p : Pixel) (c : Colour) (s : State) : Effect :=
  if s.mode = modeMono then monoPack p.1.toNat p.2.toNat c s
  else if s.mode = modeGray then grayPack p.1.toNat p.2.toNat c s
  else .go s

/-- The physical coordinate of a logical pixel, by the translator that ROT_VARIANT selects (R70). -/
def State.physical (s : State) (x y : Int) : Pixel :=
  match s.cfg.rotVariant with
  | .logical => s.xlate x y
  | .literal => s.xlateLit x y

/-- The range check of R66, which LITERAL alone makes: the pixel's physical coordinate lies outside the panel. -/
def State.fallsOff (s : State) (x y : Int) : Bool :=
  decide (s.cfg.rotVariant = .literal) && !Config.onPanel s.cfg (s.physical x y)

/-- The translation and what follows it for a pixel that passed the bounds check (R70). The range check comes before
the dispatch, whatever MODE is (R66). -/
def placePixel (x y : Int) (c : Colour) (s : State) : Effect :=
  if s.fallsOff x y then .raised .physOutOfRange (physInfo (s.physical x y)) s
  else dispatchPixel (s.physical x y) c s

/-- WritePixel(x, y, color) of R70. -/
def pixelWrite (x y : Int) (c : Colour) (s : State) : Effect :=
  if s.inBounds x y then placePixel x y c s else .go s

/-- The loop of Expand of R77: every pixel in list order, stopping at the first that raises. -/
def expand (c : Colour) : List Pixel → State → Effect
  | [], s => .go s
  | p :: ps, s =>
    match pixelWrite p.1 p.2 c s with
    | .go t => expand c ps t
    | .raised st info t => .raised st info t
    | .waiting t => .waiting t
    | .fault f => .fault f

/-! ### The panel-driver port -/

/-- A request on the panel-driver port (R97): the state once the driver has completed it, none if it never does. -/
def State.panelRequest (s : State) : Option State :=
  match s.pdServes with
  | none => some s
  | some 0 => none
  | some (n + 1) => some { s with pdServes := some n }

/-- The byte a clear writes to every byte of a buffer (R5, R33). -/
def Config.clearFill (c : Config) : BufferSel → Byte
  | .mono => c.clearFillMono
  | .gray => c.clearFillGray

/-- Clear(B) of R33. -/
def clearBuffer (sel : BufferSel) (s : State) : Effect :=
  match s.panelRequest with
  | none => .waiting s
  | some t => .go (t.withBuffer (Memory.filled (s.bufferSize sel) (Config.clearFill s.cfg sel)) sel)

/-- The event a commit of `sel` appends (R87). -/
def State.commitEvent (s : State) (sel : BufferSel) : CommitEvent := ⟨sel, s.bufferSize sel, s.buffer sel⟩

/-- The byte sequence a commit event hands over: B[0], …, B[size - 1] (R30, R87). -/
def CommitEvent.bytes (e : CommitEvent) : List Byte := e.image.bytes e.size

/-- Commit(B) of R87. -/
def commitBuffer (sel : BufferSel) (s : State) : Effect :=
  match s.panelRequest with
  | none => .waiting s
  | some t => .go { t with commits := t.commits ++ [s.commitEvent sel] }

end Sys2Proof.Machine
end

