-- ==== Sys2Proof/Machine/Commit.lean ====
section
/-! DEFINITION. SHOW, the commit selector (43_commit.md). -/

namespace Sys2Proof.Machine

/-- SHOW (R88): commits MB where MODE = 1 and GB in every other mode. -/
def execShow (s : State) : Host.Outcome State Fault Refusal :=
  whenReady s (commitBuffer (bufferOfMode s.mode) s).finish

end Sys2Proof.Machine
end

