-- ==== Sys2Proof/Machine/Control.lean ====
section
/-! DEFINITION. The rotation and display-mode commands and the accessors (40_mode_rotation.md). -/

namespace Sys2Proof.Machine

/-- ROT, LW and LH set together to rotation `r` (R17, R55). -/
def State.withRotation (s : State) (r : BitVec 2) : State :=
  { s with rot := r, lw := s.cfg.logicalWidth r, lh := s.cfg.logicalHeight r }

/-- MODE set to `m`. -/
def State.withMode (s : State) (m : BitVec 32) : State := { s with mode := m }

/-- An accessor's answer: OK with DATA (R50, R56, R60, R61, R62). -/
def answerData (data : Value) (s : State) : Host.Outcome State Fault Refusal := .next (s.respond .ok data)

/-- SET_ROTATION (R55). -/
def execSetRotation (value : Value) (s : State) : Host.Outcome State Fault Refusal :=
  whenReady s (Effect.go (s.withRotation (maskedRotation value))).finish

/-- GET_ROTATION (R56). -/
def execGetRotation (s : State) : Host.Outcome State Fault Refusal :=
  whenReady s (answerData (s.rot.setWidth 32) s)

/-- The body of SET_DISPLAY_MODE (R58). -/
def assignMode (m : Value) (s : State) : Effect :=
  if validMode s.cfg.modePolicy m then .go (s.withMode m) else .raised .invalidMode m s

/-- SET_DISPLAY_MODE (R58): assigns the mode and clears nothing. -/
def execSetDisplayMode (m : Value) (s : State) : Host.Outcome State Fault Refusal :=
  whenReady s (assignMode m s).finish

/-- The body of SELECT_DISPLAY_MODE (R59). -/
def selectMode (m : Value) (s : State) : Effect :=
  if validMode s.cfg.modePolicy m then
    if m = s.mode then .go s else clearBuffer (bufferOfMode m) (s.withMode m)
  else .raised .invalidMode m s

/-- SELECT_DISPLAY_MODE (R59): assigns the mode if it differs and clears the new mode's buffer. -/
def execSelectDisplayMode (m : Value) (s : State) : Host.Outcome State Fault Refusal :=
  whenReady s (selectMode m s).finish

/-- GET_DISPLAY_MODE (R60). -/
def execGetDisplayMode (s : State) : Host.Outcome State Fault Refusal := whenReady s (answerData s.mode s)

/-- GET_WIDTH (R61). -/
def execGetWidth (s : State) : Host.Outcome State Fault Refusal := whenReady s (answerData (s.lw.setWidth 32) s)

/-- GET_HEIGHT (R62). -/
def execGetHeight (s : State) : Host.Outcome State Fault Refusal := whenReady s (answerData (s.lh.setWidth 32) s)

end Sys2Proof.Machine
end

