-- ==== Sys2Proof/Machine/Drawing.lean ====
section
/-! DEFINITION. The drawing commands: WRITE_PIXEL, DRAW_PIXEL (41_pixel_write.md), the rectangles, runs, lines and the
transaction brackets (42_primitives.md). -/

namespace Sys2Proof.Machine

/-- WRITE_PIXEL (R71). -/
def execWritePixel (x y : Int) (color : Colour) (s : State) : Host.Outcome State Fault Refusal :=
  whenReady s (pixelWrite x y color s).finish

/-- DRAW_PIXEL (R72): an opcode of its own with WRITE_PIXEL's contract. -/
def execDrawPixel (x y : Int) (color : Colour) (s : State) : Host.Outcome State Fault Refusal :=
  whenReady s (pixelWrite x y color s).finish

/-- WRITE_FAST_HLINE (R80): a rectangle of height 1. -/
def execWriteFastHLine (x y w : Int) (color : Colour) (s : State) : Host.Outcome State Fault Refusal :=
  whenReady s (expand color (rectPixels x y w 1) s).finish

/-- WRITE_FAST_VLINE (R81): a rectangle of width 1. -/
def execWriteFastVLine (x y h : Int) (color : Colour) (s : State) : Host.Outcome State Fault Refusal :=
  whenReady s (expand color (rectPixels x y 1 h) s).finish

/-- WRITE_FILL_RECT (R79). -/
def execWriteFillRect (x y w h : Int) (color : Colour) (s : State) : Host.Outcome State Fault Refusal :=
  whenReady s (expand color (rectPixels x y w h) s).finish

/-- WRITE_LINE (R83). -/
def execWriteLine (x0 y0 x1 y1 : Int) (color : Colour) (s : State) : Host.Outcome State Fault Refusal :=
  whenReady s (expand color (linePixels x0 y0 x1 y1) s).finish

/-- START_WRITE (R84): a bracket that holds no state and does nothing. -/
def execStartWrite (s : State) : Host.Outcome State Fault Refusal := whenReady s (Effect.go s).finish

/-- END_WRITE (R85): it flushes, commits and orders nothing. -/
def execEndWrite (s : State) : Host.Outcome State Fault Refusal := whenReady s (Effect.go s).finish

end Sys2Proof.Machine
end

