-- ==== Sys2Proof/Machine/Dispatch.lean ====
section
/-! DEFINITION. One arm per instruction (R49's case), each one call of the instruction's meaning. -/

namespace Sys2Proof.Machine

def exec (i : Instr) (s : State) : Host.Outcome State Fault Refusal :=
  match i with
  | .writePixel x y color => Sys2Proof.Machine.execWritePixel x y color s
  | .drawPixel x y color => Sys2Proof.Machine.execDrawPixel x y color s
  | .writeFastHLine x y w color => Sys2Proof.Machine.execWriteFastHLine x y w color s
  | .writeFastVLine x y h color => Sys2Proof.Machine.execWriteFastVLine x y h color s
  | .writeFillRect x y w h color => Sys2Proof.Machine.execWriteFillRect x y w h color s
  | .writeLine x0 y0 x1 y1 color => Sys2Proof.Machine.execWriteLine x0 y0 x1 y1 color s
  | .startWrite => Sys2Proof.Machine.execStartWrite s
  | .endWrite => Sys2Proof.Machine.execEndWrite s
  | .setRotation value => Sys2Proof.Machine.execSetRotation value s
  | .getRotation => Sys2Proof.Machine.execGetRotation s
  | .setDisplayMode mode => Sys2Proof.Machine.execSetDisplayMode mode s
  | .selectDisplayMode mode => Sys2Proof.Machine.execSelectDisplayMode mode s
  | .getDisplayMode => Sys2Proof.Machine.execGetDisplayMode s
  | .getWidth => Sys2Proof.Machine.execGetWidth s
  | .getHeight => Sys2Proof.Machine.execGetHeight s
  | .showBuffer => Sys2Proof.Machine.execShow s

end Sys2Proof.Machine
end

