-- ==== Sys2Proof/WellFormed.lean ====
section
/-! DEFINITION. Which instructions a command word can carry: every coordinate and length fits 16-bit two's complement
(R7, R43). Colours and values have their field's width by type. -/

namespace Sys2Proof

/-- `v` is a value that `sext_16` yields (R9): -32768 ≤ v ≤ 32767. -/
def coordFits (v : Int) : Bool := decide (-32768 ≤ v) && decide (v ≤ 32767)

/-- Every coordinate and length operand of `i` fits its 16-bit field (R43, R46). -/
def Instr.wellFormed : Instr → Bool
  | .writePixel x y _ => coordFits x && coordFits y
  | .drawPixel x y _ => coordFits x && coordFits y
  | .writeFastHLine x y w _ => coordFits x && coordFits y && coordFits w
  | .writeFastVLine x y h _ => coordFits x && coordFits y && coordFits h
  | .writeFillRect x y w h _ => coordFits x && coordFits y && coordFits w && coordFits h
  | .writeLine x0 y0 x1 y1 _ => coordFits x0 && coordFits y0 && coordFits x1 && coordFits y1
  | .startWrite => true
  | .endWrite => true
  | .setRotation _ => true
  | .getRotation => true
  | .setDisplayMode _ => true
  | .selectDisplayMode _ => true
  | .getDisplayMode => true
  | .getWidth => true
  | .getHeight => true
  | .showBuffer => true

end Sys2Proof
end

