-- ==== Sys2Proof/Decode.lean ====
section
/-! DEFINITION. The command decoder of R42 to R49 and its inverse, the encoder. Both are written from R42's field table
and R46's opcode map; the reserved masks are those of spec/opcode_table.json. -/

namespace Sys2Proof

/-- The sixteen assigned opcodes (R46). -/
inductive Opcode where
  | writePixel | drawPixel | writeFastHLine | writeFastVLine | writeFillRect | writeLine | startWrite | endWrite
  | setRotation | getRotation | setDisplayMode | selectDisplayMode | getDisplayMode | getWidth | getHeight | showBuffer
deriving DecidableEq, Repr

/-- What the decoder makes of a command word (R49): an instruction, or a rejection by name. -/
inductive Decoded where
  /-- An assigned opcode with every reserved bit zero. -/
  | instr (i : Instr)
  /-- OPC is none of R46's sixteen values (R47). -/
  | illegalOpcode (opc : BitVec 8)
  /-- An assigned opcode with a reserved bit set (R48). -/
  | reservedNonzero
deriving DecidableEq, Repr

/-- OPC = CW[127:120] (R42). -/
def fieldOpc (cw : CommandWord) : BitVec 8 := cw.extractLsb' 120 8
/-- RSV = CW[119:80] (R42). -/
def fieldRsv (cw : CommandWord) : BitVec 40 := cw.extractLsb' 80 40
/-- COLOR = CW[79:64] (R42). -/
def fieldColor (cw : CommandWord) : Colour := cw.extractLsb' 64 16
/-- F3 = CW[63:48] (R42). -/
def fieldF3 (cw : CommandWord) : BitVec 16 := cw.extractLsb' 48 16
/-- F2 = CW[47:32] (R42). -/
def fieldF2 (cw : CommandWord) : BitVec 16 := cw.extractLsb' 32 16
/-- F1 = CW[31:16] (R42). -/
def fieldF1 (cw : CommandWord) : BitVec 16 := cw.extractLsb' 16 16
/-- F0 = CW[15:0] (R42). -/
def fieldF0 (cw : CommandWord) : BitVec 16 := cw.extractLsb' 0 16
/-- VAL = CW[31:0] (R42). -/
def fieldVal (cw : CommandWord) : Value := cw.extractLsb' 0 32

/-- sext_16 of R9. -/
def sext16 (v : BitVec 16) : Int := v.toInt

/-- The OPC column of R46. -/
def Opcode.code : Opcode → BitVec 8
  | .writePixel => 0x01#8
  | .drawPixel => 0x02#8
  | .writeFastHLine => 0x03#8
  | .writeFastVLine => 0x04#8
  | .writeFillRect => 0x05#8
  | .writeLine => 0x06#8
  | .startWrite => 0x07#8
  | .endWrite => 0x08#8
  | .setRotation => 0x10#8
  | .getRotation => 0x11#8
  | .setDisplayMode => 0x12#8
  | .selectDisplayMode => 0x13#8
  | .getDisplayMode => 0x14#8
  | .getWidth => 0x15#8
  | .getHeight => 0x16#8
  | .showBuffer => 0x20#8

/-- The rows of R46, in its order. -/
def opcodeRows : List Opcode :=
  [.writePixel, .drawPixel, .writeFastHLine, .writeFastVLine, .writeFillRect, .writeLine, .startWrite, .endWrite,
   .setRotation, .getRotation, .setDisplayMode, .selectDisplayMode, .getDisplayMode, .getWidth, .getHeight, .showBuffer]

/-- The row of R46 whose OPC matches, if one does (R46, R47). -/
def opcodeOf (opc : BitVec 8) : Option Opcode := opcodeRows.find? fun o => decide (o.code = opc)

/-- RMASK[OPC] of R46: a 1 in every bit of RSV and of every field the row marks `0`. -/
def Opcode.rmask : Opcode → CommandWord
  | .writePixel => 0x00FFFFFFFFFF0000FFFFFFFF00000000#128
  | .drawPixel => 0x00FFFFFFFFFF0000FFFFFFFF00000000#128
  | .writeFastHLine => 0x00FFFFFFFFFF0000FFFF000000000000#128
  | .writeFastVLine => 0x00FFFFFFFFFF0000FFFF000000000000#128
  | .writeFillRect => 0x00FFFFFFFFFF00000000000000000000#128
  | .writeLine => 0x00FFFFFFFFFF00000000000000000000#128
  | .startWrite => 0x00FFFFFFFFFFFFFFFFFFFFFFFFFFFFFF#128
  | .endWrite => 0x00FFFFFFFFFFFFFFFFFFFFFFFFFFFFFF#128
  | .setRotation => 0x00FFFFFFFFFFFFFFFFFFFFFF00000000#128
  | .getRotation => 0x00FFFFFFFFFFFFFFFFFFFFFFFFFFFFFF#128
  | .setDisplayMode => 0x00FFFFFFFFFFFFFFFFFFFFFF00000000#128
  | .selectDisplayMode => 0x00FFFFFFFFFFFFFFFFFFFFFF00000000#128
  | .getDisplayMode => 0x00FFFFFFFFFFFFFFFFFFFFFFFFFFFFFF#128
  | .getWidth => 0x00FFFFFFFFFFFFFFFFFFFFFFFFFFFFFF#128
  | .getHeight => 0x00FFFFFFFFFFFFFFFFFFFFFFFFFFFFFF#128
  | .showBuffer => 0x00FFFFFFFFFFFFFFFFFFFFFFFFFFFFFF#128

/-- The operands of a row, read from its fields (R43, R44, R45, R46). -/
def Opcode.operands (cw : CommandWord) : Opcode → Instr
  | .writePixel => .writePixel (sext16 (fieldF0 cw)) (sext16 (fieldF1 cw)) (fieldColor cw)
  | .drawPixel => .drawPixel (sext16 (fieldF0 cw)) (sext16 (fieldF1 cw)) (fieldColor cw)
  | .writeFastHLine =>
    .writeFastHLine (sext16 (fieldF0 cw)) (sext16 (fieldF1 cw)) (sext16 (fieldF2 cw)) (fieldColor cw)
  | .writeFastVLine =>
    .writeFastVLine (sext16 (fieldF0 cw)) (sext16 (fieldF1 cw)) (sext16 (fieldF2 cw)) (fieldColor cw)
  | .writeFillRect =>
    .writeFillRect (sext16 (fieldF0 cw)) (sext16 (fieldF1 cw)) (sext16 (fieldF2 cw)) (sext16 (fieldF3 cw))
      (fieldColor cw)
  | .writeLine =>
    .writeLine (sext16 (fieldF0 cw)) (sext16 (fieldF1 cw)) (sext16 (fieldF2 cw)) (sext16 (fieldF3 cw)) (fieldColor cw)
  | .startWrite => .startWrite
  | .endWrite => .endWrite
  | .setRotation => .setRotation (fieldVal cw)
  | .getRotation => .getRotation
  | .setDisplayMode => .setDisplayMode (fieldVal cw)
  | .selectDisplayMode => .selectDisplayMode (fieldVal cw)
  | .getDisplayMode => .getDisplayMode
  | .getWidth => .getWidth
  | .getHeight => .getHeight
  | .showBuffer => .showBuffer

/-- The decoder (R49, its opcode and reserved-bit checks in that order). -/
def decode (cw : CommandWord) : Decoded :=
  match opcodeOf (fieldOpc cw) with
  | none => .illegalOpcode (fieldOpc cw)
  | some o => if cw &&& o.rmask = 0#128 then .instr (o.operands cw) else .reservedNonzero

/-! ### The encoder -/

/-- A command word from its fields, RSV zero (R42). -/
def assembleWord (o : Opcode) (color : Colour) (f3 f2 f1 f0 : BitVec 16) : CommandWord :=
  o.code ++ 0#40 ++ color ++ f3 ++ f2 ++ f1 ++ f0

/-- A coordinate or length, encoded mod 2^16 (R51). -/
def coordField (v : Int) : BitVec 16 := BitVec.ofInt 16 v

/-- The high half of VAL, which lies in F1 (R42). -/
def valHigh (v : Value) : BitVec 16 := v.extractLsb' 16 16
/-- The low half of VAL, which lies in F0 (R42). -/
def valLow (v : Value) : BitVec 16 := v.extractLsb' 0 16

/-- The command word of an instruction (R42, R46); 0 in every reserved field (R51). -/
def encode : Instr → CommandWord
  | .writePixel x y c => assembleWord .writePixel c 0#16 0#16 (coordField y) (coordField x)
  | .drawPixel x y c => assembleWord .drawPixel c 0#16 0#16 (coordField y) (coordField x)
  | .writeFastHLine x y w c => assembleWord .writeFastHLine c 0#16 (coordField w) (coordField y) (coordField x)
  | .writeFastVLine x y h c => assembleWord .writeFastVLine c 0#16 (coordField h) (coordField y) (coordField x)
  | .writeFillRect x y w h c =>
    assembleWord .writeFillRect c (coordField h) (coordField w) (coordField y) (coordField x)
  | .writeLine x0 y0 x1 y1 c =>
    assembleWord .writeLine c (coordField y1) (coordField x1) (coordField y0) (coordField x0)
  | .startWrite => assembleWord .startWrite 0#16 0#16 0#16 0#16 0#16
  | .endWrite => assembleWord .endWrite 0#16 0#16 0#16 0#16 0#16
  | .setRotation v => assembleWord .setRotation 0#16 0#16 0#16 (valHigh v) (valLow v)
  | .getRotation => assembleWord .getRotation 0#16 0#16 0#16 0#16 0#16
  | .setDisplayMode m => assembleWord .setDisplayMode 0#16 0#16 0#16 (valHigh m) (valLow m)
  | .selectDisplayMode m => assembleWord .selectDisplayMode 0#16 0#16 0#16 (valHigh m) (valLow m)
  | .getDisplayMode => assembleWord .getDisplayMode 0#16 0#16 0#16 0#16 0#16
  | .getWidth => assembleWord .getWidth 0#16 0#16 0#16 0#16 0#16
  | .getHeight => assembleWord .getHeight 0#16 0#16 0#16 0#16 0#16
  | .showBuffer => assembleWord .showBuffer 0#16 0#16 0#16 0#16 0#16

/-- The command word that `nbits` table bits `w` stand for: one 128-bit word, every bit above `nbits` zero. -/
def tableWord (nbits w : Nat) : CommandWord := BitVec.ofNat 128 (w % 2 ^ nbits)

/-- The instruction the decoder reads from the table's word `w` of `nbits` bits, none where it rejects it. A command
is one 128-bit word presented whole (R41), so there is no byte order to apply. -/
def decodeTableWord (nbits w : Nat) : Option Instr :=
  match decode (tableWord nbits w) with
  | .instr i => some i
  | .illegalOpcode _ => none
  | .reservedNonzero => none

end Sys2Proof
end

