-- ==== Sys2Proof/Machine/Front.lean ====
section
/-! DEFINITION. The front end: the command port (R14, R112) and the decoder's checks in R49's order. -/

namespace Sys2Proof.Machine

/-- What the command port holds for the next step. -/
inductive Accepted where
  /-- FBCORE is busy, for good: no command is accepted (R23, R116). -/
  | stuck
  /-- Nothing is presented: FBCORE is idle and waits (R109). -/
  | idle
  /-- The oldest presented command, accepted: FBCORE is busy with it (R23). -/
  | command (cw : CommandWord) (s : State)
deriving DecidableEq, Repr

/-- The command port between two commands (R112): a command is accepted only when FBCORE is idle, the oldest first,
and a later one is held. -/
def State.accept (s : State) : Accepted :=
  if s.busy then .stuck
  else
    match s.port with
    | [] => .idle
    | cw :: rest => .command cw { s with port := rest, busy := true }

/-- The decoder's verdict on an accepted command. -/
inductive Verdict where
  /-- The command is answered at once with a status and its info, and has no effect. -/
  | answer (st : Status) (info : Value)
  /-- The command runs. -/
  | run (i : Instr)
deriving DecidableEq, Repr

/-- Exec(CW) of R49 up to its `case`: INIT, then the opcode, then the reserved bits (R96). -/
def verdict (init : InitState) (cw : CommandWord) : Verdict :=
  match init with
  | .failed => .answer .notInitialised 0#32
  | .ready =>
    match decode cw with
    | .illegalOpcode opc => .answer .illegalOpcode (opc.setWidth 32)
    | .reservedNonzero => .answer .reservedNonzero 0#32
    | .instr i => .run i

/-- The host presents a command word: it stands behind those presented before (R36, R112). -/
def State.present (cw : CommandWord) (s : State) : State := { s with port := s.port ++ [cw] }

end Sys2Proof.Machine
end

