-- ==== Sys2Proof/Machine/Step.lean ====
section
/-! DEFINITION. One step: one whole command (R32, R36), or a wait on an empty port (R109). -/

namespace Sys2Proof.Machine

/-- One step of FBCORE. -/
def step (s : State) : Host.Outcome State Fault Refusal :=
  match s.accept with
  | .stuck => .fault .panelNeverCompletes
  | .idle => .next s
  | .command cw t =>
    match verdict t.init cw with
    | .answer st info => .next (t.respond st info)
    | .run i => exec i t

/-- `s` with the table's word presented as the next command, and idle, so that the next step accepts it (R112). -/
def State.withFetchWord (s : State) (nbits w : Nat) : State :=
  { s with port := tableWord nbits w :: s.port, busy := false }

end Sys2Proof.Machine
end

