-- ==== Sys2Proof/Machine/Assembler.lean ====
section
/-! DEFINITION. The assembler of R51: from one line of text to a command. The conventions R51 leaves open are in log 19. -/

namespace Sys2Proof.Machine

/-- An operand as written (R51). -/
inductive AsmOperand where
  /-- A decimal integer, which may be negative. -/
  | dec (v : Int)
  /-- A hexadecimal `0x` literal. -/
  | hex (v : Nat)
  /-- One of the symbols UNINIT, MONO and GRAY, by the mode it stands for. -/
  | mode (v : Int)
deriving DecidableEq, Repr

/-- What a line assembles to. -/
inductive Assembled where
  /-- A command. -/
  | command (i : Instr)
  /-- A line with nothing but space and a comment. -/
  | nothing
  /-- An assembly error, which is not a command (R51). -/
  | error
deriving DecidableEq, Repr

/-! ### Operand ranges -/

/-- A coordinate or length: -32768..32767, or a 16-bit hexadecimal pattern (R51). -/
def AsmOperand.coord : AsmOperand → Option Int
  | .dec v => if -32768 ≤ v ∧ v ≤ 32767 then some v else none
  | .hex v => if v < 2 ^ 16 then some (sext16 (BitVec.ofNat 16 v)) else none
  | .mode _ => none

/-- A colour: 0..65535 (R51). -/
def AsmOperand.colour : AsmOperand → Option Colour
  | .dec v => if 0 ≤ v ∧ v ≤ 65535 then some (BitVec.ofInt 16 v) else none
  | .hex v => if v ≤ 65535 then some (BitVec.ofNat 16 v) else none
  | .mode _ => none

/-- A rotation value: -2^31..2^32 - 1, encoded mod 2^32 (R51). -/
def AsmOperand.rotation : AsmOperand → Option Value
  | .dec v => if -2 ^ 31 ≤ v ∧ v ≤ 2 ^ 32 - 1 then some (BitVec.ofInt 32 v) else none
  | .hex v => if v < 2 ^ 32 then some (BitVec.ofNat 32 v) else none
  | .mode _ => none

/-- A mode: as a rotation value, or one of the three symbols (R51). -/
def AsmOperand.modeValue : AsmOperand → Option Value
  | .dec v => AsmOperand.rotation (.dec v)
  | .hex v => AsmOperand.rotation (.hex v)
  | .mode v => some (BitVec.ofInt 32 v)

/-- The command of a mnemonic and its operands, in R51's order; none where it is an assembly error. -/
def assembleParts : String → List AsmOperand → Option Instr
  | "WRITE_PIXEL", [x, y, c] => do return .writePixel (← x.coord) (← y.coord) (← c.colour)
  | "DRAW_PIXEL", [x, y, c] => do return .drawPixel (← x.coord) (← y.coord) (← c.colour)
  | "WRITE_FAST_HLINE", [x, y, w, c] => do
    return .writeFastHLine (← x.coord) (← y.coord) (← w.coord) (← c.colour)
  | "WRITE_FAST_VLINE", [x, y, h, c] => do
    return .writeFastVLine (← x.coord) (← y.coord) (← h.coord) (← c.colour)
  | "WRITE_FILL_RECT", [x, y, w, h, c] => do
    return .writeFillRect (← x.coord) (← y.coord) (← w.coord) (← h.coord) (← c.colour)
  | "WRITE_LINE", [x0, y0, x1, y1, c] => do
    return .writeLine (← x0.coord) (← y0.coord) (← x1.coord) (← y1.coord) (← c.colour)
  | "START_WRITE", [] => some .startWrite
  | "END_WRITE", [] => some .endWrite
  | "SET_ROTATION", [v] => do return .setRotation (← v.rotation)
  | "GET_ROTATION", [] => some .getRotation
  | "SET_DISPLAY_MODE", [m] => do return .setDisplayMode (← m.modeValue)
  | "SELECT_DISPLAY_MODE", [m] => do return .selectDisplayMode (← m.modeValue)
  | "GET_DISPLAY_MODE", [] => some .getDisplayMode
  | "GET_WIDTH", [] => some .getWidth
  | "GET_HEIGHT", [] => some .getHeight
  | "SHOW", [] => some .showBuffer
  | _, _ => none

/-! ### The text of a line -/

/-- The digit a character is, below `base`. -/
def digitOf (base : Nat) (ch : Char) : Option Nat :=
  let n := ch.toNat
  let d := if 48 ≤ n ∧ n ≤ 57 then n - 48 else if 65 ≤ n ∧ n ≤ 70 then n - 55 else if 97 ≤ n ∧ n ≤ 102 then n - 87 else base
  if d < base then some d else none

/-- The number that digits after `acc` make. -/
def digitsFrom (base : Nat) : Nat → List Char → Option Nat
  | acc, [] => some acc
  | acc, ch :: rest => (digitOf base ch).bind fun d => digitsFrom base (acc * base + d) rest

/-- The number that one or more digits make. -/
def digitsOf (base : Nat) : List Char → Option Nat
  | [] => none
  | ch :: rest => digitsFrom base 0 (ch :: rest)

/-- A decimal integer, a hexadecimal `0x` literal or a mode symbol (R51). -/
def operandOf : List Char → Option AsmOperand
  | '0' :: 'x' :: rest => (digitsOf 16 rest).map .hex
  | '-' :: rest => (digitsOf 10 rest).map fun n => .dec (-n)
  | cs =>
    if cs = ['U', 'N', 'I', 'N', 'I', 'T'] then some (.mode (-1))
    else if cs = ['M', 'O', 'N', 'O'] then some (.mode 1)
    else if cs = ['G', 'R', 'A', 'Y'] then some (.mode 3)
    else (digitsOf 10 cs).map fun n => .dec n

/-- A blank or a tab. -/
def isBlank (ch : Char) : Bool := ch == ' ' || ch == '\t'

/-- `cs` without the blanks at its two ends. -/
def trimBlanks (cs : List Char) : List Char := ((cs.dropWhile isBlank).reverse.dropWhile isBlank).reverse

/-- `cs` cut at every comma. -/
def cutAtCommas : List Char → List (List Char)
  | [] => [[]]
  | ch :: rest =>
    match cutAtCommas rest with
    | [] => [[ch]]
    | part :: parts => if ch = ',' then [] :: part :: parts else (ch :: part) :: parts

/-- Every operand between commas, none where one of them is not an operand; no operand in an empty text. -/
def operandsOf (cs : List Char) : Option (List AsmOperand) :=
  if trimBlanks cs = [] then some [] else (cutAtCommas cs).mapM fun part => operandOf (trimBlanks part)

/-- A line: a mnemonic, then its operands separated by commas; `;` starts a comment (R51). -/
def assembleChars (line : List Char) : Assembled :=
  let code := trimBlanks (line.takeWhile fun ch => ch != ';')
  let mnemonic := code.takeWhile fun ch => !isBlank ch
  if code = [] then .nothing
  else
    match (operandsOf (code.dropWhile fun ch => !isBlank ch)).bind (assembleParts (String.ofList mnemonic)) with
    | some i => .command i
    | none => .error

/-- The assembler of R51 on one line of text. -/
def assembleLine (line : String) : Assembled := assembleChars line.toList

end Sys2Proof.Machine
end

