-- ==== Sys2Proof/Machine/Observe.lean ====
section
/-! DEFINITION. The observation port of R101 and the pixel read-back functions of R75. A read is a function of the state
and gives no new state, so it changes nothing (R34). -/

namespace Sys2Proof.Machine

/-- What an observation-port read comes to. -/
inductive Observed (α : Type) where
  | value (v : α)
  | fault (f : Fault)
  | refused (r : Refusal)
deriving DecidableEq, Repr

/-- The registers the observation port reads (R101). -/
inductive Register where
  | rot | lw | lh | mode | init
deriving DecidableEq, Repr

/-- INIT as its bit: READY = 1, FAILED = 0 (R19). -/
def InitState.bit : InitState → BitVec 1
  | .failed => 0#1
  | .ready => 1#1

/-- A register's value, zero-extended to 32 bits. -/
def State.register (s : State) : Register → Value
  | .rot => s.rot.setWidth 32
  | .lw => s.lw.setWidth 32
  | .lh => s.lh.setWidth 32
  | .mode => s.mode
  | .init => s.init.bit.setWidth 32

/-- A register read on the observation port (R101): defined while idle, whatever INIT is (R108); refused while busy
(R113; log 12). -/
def observeReg (r : Register) (s : State) : Observed Value :=
  if s.busy then .refused .observedWhileBusy else .value (s.register r)

/-- A buffer-byte read on the observation port (R101): refused while busy, a fault while INIT = FAILED or outside the
buffer (R25, R108). -/
def observeByte (sel : BufferSel) (i : Nat) (s : State) : Observed Byte :=
  if s.busy then .refused .observedWhileBusy
  else if s.init = .failed then .fault .bufferHoldsNoValue
  else if i < s.bufferSize sel then .value (s.memRead sel i)
  else .fault .bufferIndexOutOfRange

/-- MPix(x0, y0) of R75. -/
def State.mPix (s : State) (x0 y0 : Nat) : Byte := monoPixelOf x0 (s.memRead .mono (s.cfg.mbyte x0 y0))

/-- GPix(x0, y0) of R75. -/
def State.gPix (s : State) (x0 y0 : Nat) : Byte := grayPixelOf x0 (s.memRead .gray (s.cfg.gbyte x0 y0))

/-- GRsv(x0, y0) of R75. -/
def State.gRsv (s : State) (x0 y0 : Nat) : Byte := grayReservedOf x0 (s.memRead .gray (s.cfg.gbyte x0 y0))

end Sys2Proof.Machine
end

