-- ==== Sys2Proof/Safety.lean ====
section
/-! DEFINITION. The terms that statements use: the invariant of FBCORE, a command that is ready to run, and what an
outcome is, and what R51 says of an operand as written. -/

namespace Sys2Proof

/-- The reserved fields of a row of R46 are zero in `cw`: RSV, and every field the row marks `0`. Written from R46's
columns, apart from the masks the decoder uses. -/
def reservedFieldsZero (cw : CommandWord) : Opcode → Prop
  | .writePixel => fieldRsv cw = 0#40 ∧ fieldF3 cw = 0#16 ∧ fieldF2 cw = 0#16
  | .drawPixel => fieldRsv cw = 0#40 ∧ fieldF3 cw = 0#16 ∧ fieldF2 cw = 0#16
  | .writeFastHLine => fieldRsv cw = 0#40 ∧ fieldF3 cw = 0#16
  | .writeFastVLine => fieldRsv cw = 0#40 ∧ fieldF3 cw = 0#16
  | .writeFillRect => fieldRsv cw = 0#40
  | .writeLine => fieldRsv cw = 0#40
  | .setRotation => fieldRsv cw = 0#40 ∧ fieldColor cw = 0#16 ∧ fieldF3 cw = 0#16 ∧ fieldF2 cw = 0#16
  | .setDisplayMode => fieldRsv cw = 0#40 ∧ fieldColor cw = 0#16 ∧ fieldF3 cw = 0#16 ∧ fieldF2 cw = 0#16
  | .selectDisplayMode => fieldRsv cw = 0#40 ∧ fieldColor cw = 0#16 ∧ fieldF3 cw = 0#16 ∧ fieldF2 cw = 0#16
  | .startWrite => cw.extractLsb' 0 120 = 0#120
  | .endWrite => cw.extractLsb' 0 120 = 0#120
  | .getRotation => cw.extractLsb' 0 120 = 0#120
  | .getDisplayMode => cw.extractLsb' 0 120 = 0#120
  | .getWidth => cw.extractLsb' 0 120 = 0#120
  | .getHeight => cw.extractLsb' 0 120 = 0#120
  | .showBuffer => cw.extractLsb' 0 120 = 0#120

end Sys2Proof

namespace Sys2Proof.Machine

/-- (LW, LH) = dims(ROT), which holds at every point between commands (R17). -/
abbrev State.dimsAgree (s : State) : Prop := s.lw = s.cfg.logicalWidth s.rot ∧ s.lh = s.cfg.logicalHeight s.rot

/-- Both buffers are in their canonical form and list no index outside them (R20, R25). -/
abbrev State.buffersWf (s : State) : Prop := s.mb.wf s.cfg.msize = true ∧ s.gb.wf s.cfg.gsize = true

/-- Under STRICT, MODE holds -1, 1 or 3 (R18, R57); under PERMISSIVE any value. -/
abbrev State.modeAllowed (s : State) : Prop := validMode s.cfg.modePolicy s.mode = true

/-- The commit trace holds whole buffers: every event has its buffer's size and a canonical image (R87). -/
abbrev State.commitsWf (s : State) : Prop := ∀ e ∈ s.commits, e.size = s.bufferSize e.sel ∧ e.image.wf e.size = true

/-- What every state that reset reaches satisfies: legal parameters (R5), dimensions that agree with ROT (R17),
canonical buffers (R20, R25), an allowed mode (R57), a well-formed commit trace (R87). -/
abbrev State.inv (s : State) : Prop := s.cfg.legal ∧ s.dimsAgree ∧ s.buffersWf ∧ s.modeAllowed ∧ s.commitsWf

/-- The panel driver completes the next request (R97, R116). -/
abbrev State.driverServes (s : State) : Prop := s.pdServes ≠ some 0

/-- The panel driver after one request that it completes. -/
def servesLeft : Option Nat → Option Nat
  | none => none
  | some n => some (n - 1)

/-- The outcome is a next state. -/
def isNext : Host.Outcome State Fault Refusal → Bool
  | .next _ => true
  | .fault _ => false
  | .refused _ => false

/-- The pixels a command writes, in order: the pixel itself (R71, R72), a rectangle (R79, R80, R81) or a line (R83);
none for a command that draws nothing. -/
def drawnPixels : Instr → Option (List Pixel)
  | .writePixel x y _ => some [(x, y)]
  | .drawPixel x y _ => some [(x, y)]
  | .writeFastHLine x y w _ => some (rectPixels x y w 1)
  | .writeFastVLine x y h _ => some (rectPixels x y 1 h)
  | .writeFillRect x y w h _ => some (rectPixels x y w h)
  | .writeLine x0 y0 x1 y1 _ => some (linePixels x0 y0 x1 y1)
  | .startWrite => none
  | .endWrite => none
  | .setRotation _ => none
  | .getRotation => none
  | .setDisplayMode _ => none
  | .selectDisplayMode _ => none
  | .getDisplayMode => none
  | .getWidth => none
  | .getHeight => none
  | .showBuffer => none

/-- The pixel passes the range check of R66, or never meets it because the bounds checker clips it first (R70). -/
abbrev State.lands (s : State) (p : Pixel) : Prop := s.inBounds p.1 p.2 = true → s.fallsOff p.1 p.2 = false

/-- The physical pixel (x0, y0) is the image of an in-bounds pixel of `ps` (R70, R77). -/
def State.hits (s : State) (ps : List Pixel) (x0 y0 : Nat) : Prop :=
  ∃ p ∈ ps, s.inBounds p.1 p.2 = true ∧ s.physical p.1 p.2 = ((x0 : Int), (y0 : Int))

/-- What drawing the pixels `ps` in colour `c` makes of the two buffers of `s` (R67 to R70, R77), pixel by pixel of the
panel: in MODE 1 a hit pixel is set or cleared, in MODE 3 a hit pixel takes the low three bits of the colour and a zero
reserved bit (R29), and every other pixel, and the other buffer, is as it was. In any other mode nothing changes. -/
def State.paintedAs (s : State) (ps : List Pixel) (c : Colour) (t : State) : Prop :=
  (s.mode = modeMono → t.gb = s.gb ∧ ∀ x0 y0 : Nat, x0 < s.cfg.pw → y0 < s.cfg.ph →
    (s.hits ps x0 y0 → t.mPix x0 y0 = if c = 0#16 then 0#8 else 1#8) ∧
    (¬ s.hits ps x0 y0 → t.mPix x0 y0 = s.mPix x0 y0)) ∧
  (s.mode = modeGray → t.mb = s.mb ∧ ∀ x0 y0 : Nat, x0 < s.cfg.pw → y0 < s.cfg.ph →
    (s.hits ps x0 y0 → t.gPix x0 y0 = (c &&& 7#16).setWidth 8 ∧ t.gRsv x0 y0 = 0#8) ∧
    (¬ s.hits ps x0 y0 → t.gPix x0 y0 = s.gPix x0 y0 ∧ t.gRsv x0 y0 = s.gRsv x0 y0)) ∧
  (s.mode ≠ modeMono → s.mode ≠ modeGray → t.mb = s.mb ∧ t.gb = s.gb)

/-! ### Operands as written (R51) -/

/-- An operand's spelling: decimal, `0x` and hexadecimal digits, or a symbol. -/
def AsmOperand.text : AsmOperand → String
  | .dec v => toString v
  | .hex n => "0x" ++ String.ofList (Nat.toDigits 16 n)
  | .mode v => if v = -1 then "UNINIT" else if v = 1 then "MONO" else "GRAY"

/-- The operand is the coordinate or length `v`: within -32768..32767, or a 16-bit hexadecimal pattern, which is read as
two's complement (R43, R51). -/
def AsmOperand.meansCoord : AsmOperand → Int → Prop
  | .dec w, v => v = w ∧ -32768 ≤ w ∧ w ≤ 32767
  | .hex n, v => n < 2 ^ 16 ∧ v = if n < 2 ^ 15 then (n : Int) else n - 2 ^ 16
  | .mode _, _ => False

/-- The operand is the colour `c`, within 0..65535 (R51). -/
def AsmOperand.meansColour : AsmOperand → Colour → Prop
  | .dec w, c => w = c.toNat
  | .hex n, c => n = c.toNat
  | .mode _, _ => False

/-- The operand is the value `v`: within -2^31..2^32 - 1 and encoded mod 2^32 (R51). -/
def AsmOperand.meansValue : AsmOperand → Value → Prop
  | .dec w, v => (-2 ^ 31 ≤ w ∧ w ≤ 2 ^ 32 - 1) ∧ (v.toNat : Int) = w % 2 ^ 32
  | .hex n, v => n = v.toNat
  | .mode _, _ => False

/-- The operand is the mode `m`: a value, or one of the symbols UNINIT = -1, MONO = 1 and GRAY = 3 (R51). -/
def AsmOperand.meansMode : AsmOperand → Value → Prop
  | .dec w, m => AsmOperand.meansValue (.dec w) m
  | .hex n, m => AsmOperand.meansValue (.hex n) m
  | .mode w, m => (w = -1 ∨ w = 1 ∨ w = 3) ∧ m.toInt = w

/-- A number outside the range of a coordinate or length (R51). -/
def AsmOperand.outsideCoord : AsmOperand → Prop
  | .dec w => w < -32768 ∨ 32767 < w
  | .hex n => 2 ^ 16 ≤ n
  | .mode _ => False

/-- A number outside the range of a colour (R51). -/
def AsmOperand.outsideColour : AsmOperand → Prop
  | .dec w => w < 0 ∨ 65535 < w
  | .hex n => 65535 < n
  | .mode _ => False

/-- A number outside the range of a value or mode (R51). -/
def AsmOperand.outsideValue : AsmOperand → Prop
  | .dec w => w < -2 ^ 31 ∨ 2 ^ 32 - 1 < w
  | .hex n => 2 ^ 32 - 1 < n
  | .mode _ => False

end Sys2Proof.Machine
end

