-- ==== Sys2Proof/Certificates/Slice0/Obligations.lean ====
section
/-! DEFINITION. The statements about FBCORE for the provers. `responses`, `port`, `cfg` and `pdServes` are the model's own
fields (logs 1, 2, 5 and 7): the host's record of the answers, the presented commands, the parameters, and how many
requests the panel driver still completes. -/

open Sys2Proof Sys2Proof.Machine

/-! ### Encoding -/

/-- A few command words of 95_test_vectors.md decode to the commands they are listed for (R42 to R46). -/
def Obligations.ListedWordsDecode : Prop :=
  decode 0x0100000000000001000000000014000A#128 = .instr (.writePixel 10 20 1#16) ∧
  decode 0x0600000000000007000000020000FFFE#128 = .instr (.writeLine (-2) 0 2 0 7#16) ∧
  decode 0x05000000000000010002000400030002#128 = .instr (.writeFillRect 2 3 4 2 1#16) ∧
  decode 0x100000000000000000000000FFFFFFFF#128 = .instr (.setRotation 0xFFFFFFFF#32) ∧
  decode 0x20000000000000000000000000000000#128 = .instr .showBuffer ∧
  decode 0x09000000000100000000000000000000#128 = .illegalOpcode 0x09#8 ∧
  decode 0x20000000000000000000000000000001#128 = .reservedNonzero

/-- Decode and encode agree: the word of every well-formed instruction decodes to that instruction (R42 to R46). -/
def Obligations.DecodeOfEncodeIsTheInstruction : Prop := ∀ i : Instr, i.wellFormed = true → decode (encode i) = .instr i

/-- Every command word has one meaning: a word that decodes to an instruction is that instruction's own word, and the
instruction is well-formed (R42 to R46). -/
def Obligations.EncodeOfDecodeIsTheWord : Prop :=
  ∀ (cw : CommandWord) (i : Instr), decode cw = .instr i → encode i = cw ∧ i.wellFormed = true

/-- The encodings of the six drawing commands, for every operand (R71, R72, R79, R80, R81, R83): OPC, zero RSV, COLOR, F3,
F2, F1 and F0 in R42's places, each coordinate the two's complement reading of its field (R43) and each field the row
does not use zero. -/
def Obligations.DrawingCommandsHaveTheirEncodings : Prop :=
  ∀ (cw : CommandWord) (color : Colour) (f0 f1 f2 f3 : BitVec 16),
    (decode cw = .instr (.writePixel f0.toInt f1.toInt color) ↔
      cw = 0x01#8 ++ 0#40 ++ color ++ 0#16 ++ 0#16 ++ f1 ++ f0) ∧
    (decode cw = .instr (.drawPixel f0.toInt f1.toInt color) ↔
      cw = 0x02#8 ++ 0#40 ++ color ++ 0#16 ++ 0#16 ++ f1 ++ f0) ∧
    (decode cw = .instr (.writeFastHLine f0.toInt f1.toInt f2.toInt color) ↔
      cw = 0x03#8 ++ 0#40 ++ color ++ 0#16 ++ f2 ++ f1 ++ f0) ∧
    (decode cw = .instr (.writeFastVLine f0.toInt f1.toInt f2.toInt color) ↔
      cw = 0x04#8 ++ 0#40 ++ color ++ 0#16 ++ f2 ++ f1 ++ f0) ∧
    (decode cw = .instr (.writeFillRect f0.toInt f1.toInt f2.toInt f3.toInt color) ↔
      cw = 0x05#8 ++ 0#40 ++ color ++ f3 ++ f2 ++ f1 ++ f0) ∧
    (decode cw = .instr (.writeLine f0.toInt f1.toInt f2.toInt f3.toInt color) ↔
      cw = 0x06#8 ++ 0#40 ++ color ++ f3 ++ f2 ++ f1 ++ f0)

/-- An accepted word whose OPC is not assigned is answered ILLEGAL_OPCODE with DATA = OPC and changes no state (R47,
R91). -/
def Obligations.UnassignedOpcodeIsAnsweredIllegal : Prop :=
  ∀ (s : State) (cw : CommandWord) (rest : List CommandWord), s.busy = false → s.init = .ready → s.port = cw :: rest →
    ((fieldOpc cw).toNat = 0 ∨ (0x09 ≤ (fieldOpc cw).toNat ∧ (fieldOpc cw).toNat ≤ 0x0F) ∨
      (0x17 ≤ (fieldOpc cw).toNat ∧ (fieldOpc cw).toNat ≤ 0x1F) ∨ 0x21 ≤ (fieldOpc cw).toNat) →
    step s = .next { s with port := rest, responses := s.responses ++ [⟨.illegalOpcode, (fieldOpc cw).setWidth 32⟩] }

/-- An accepted word with an assigned OPC and a bit set in RSV, or in a field its row of R46 marks `0`, is answered
RESERVED_NONZERO with DATA 0 and changes no state (R48, R92). -/
def Obligations.ReservedBitIsAnsweredReserved : Prop :=
  ∀ (s : State) (cw : CommandWord) (rest : List CommandWord) (o : Opcode), s.busy = false → s.init = .ready →
    s.port = cw :: rest → fieldOpc cw = o.code → ¬ reservedFieldsZero cw o →
    step s = .next { s with port := rest, responses := s.responses ++ [⟨.reservedNonzero, 0#32⟩] }

/-- A response word carries its status code in [39:32] and DATA in [31:0] (R50), and the codes are those of R90. -/
def Obligations.ResponseWordCarriesStatusAndData : Prop :=
  (∀ r : Response, r.word.extractLsb' 32 8 = r.status.code ∧ r.word.extractLsb' 0 32 = r.data) ∧
  [Status.ok, .illegalOpcode, .reservedNonzero, .notInitialised, .invalidMode, .physOutOfRange].map
    (fun st => st.code.toNat) = [0, 1, 2, 3, 4, 5]

/-- A line that assembles gives a well-formed command, whose word decodes to it (R51). -/
def Obligations.AssembledCommandsAreWellFormed : Prop :=
  ∀ (line : String) (i : Instr), assembleLine line = .command i → i.wellFormed = true ∧ decode (encode i) = .instr i

/-- A line's mnemonic and operands give the command R51 lists for them, each operand in its place and as a decimal
number, a hexadecimal literal or a mode symbol; a comment changes nothing. The spelling is one space after the mnemonic
and after each comma, and small hexadecimal digits (other spellings that the assembler takes are log 19). -/
def Obligations.AssembledLineIsItsCommand : Prop :=
  (∀ (a b d e g : AsmOperand) (x y z w : Int) (c : Colour),
    a.meansCoord x → b.meansCoord y → d.meansCoord z → e.meansCoord w → g.meansColour c →
    assembleLine ("WRITE_PIXEL " ++ a.text ++ ", " ++ b.text ++ ", " ++ g.text) = .command (.writePixel x y c) ∧
    assembleLine ("DRAW_PIXEL " ++ a.text ++ ", " ++ b.text ++ ", " ++ g.text) = .command (.drawPixel x y c) ∧
    assembleLine ("WRITE_FAST_HLINE " ++ a.text ++ ", " ++ b.text ++ ", " ++ d.text ++ ", " ++ g.text) =
      .command (.writeFastHLine x y z c) ∧
    assembleLine ("WRITE_FAST_VLINE " ++ a.text ++ ", " ++ b.text ++ ", " ++ d.text ++ ", " ++ g.text) =
      .command (.writeFastVLine x y z c) ∧
    assembleLine ("WRITE_FILL_RECT " ++ a.text ++ ", " ++ b.text ++ ", " ++ d.text ++ ", " ++ e.text ++ ", " ++ g.text) =
      .command (.writeFillRect x y z w c) ∧
    assembleLine ("WRITE_LINE " ++ a.text ++ ", " ++ b.text ++ ", " ++ d.text ++ ", " ++ e.text ++ ", " ++ g.text) =
      .command (.writeLine x y z w c)) ∧
  (∀ (a : AsmOperand) (v : Value), a.meansValue v →
    assembleLine ("SET_ROTATION " ++ a.text) = .command (.setRotation v)) ∧
  (∀ (a : AsmOperand) (m : Value), a.meansMode m →
    assembleLine ("SET_DISPLAY_MODE " ++ a.text) = .command (.setDisplayMode m) ∧
    assembleLine ("SELECT_DISPLAY_MODE " ++ a.text) = .command (.selectDisplayMode m)) ∧
  (["START_WRITE", "END_WRITE", "GET_ROTATION", "GET_DISPLAY_MODE", "GET_WIDTH", "GET_HEIGHT", "SHOW"].map assembleLine =
    [Instr.startWrite, .endWrite, .getRotation, .getDisplayMode, .getWidth, .getHeight, .showBuffer].map .command) ∧
  ∀ line comment : String, assembleLine (line ++ ";" ++ comment) = assembleLine line

/-- A number outside its operand's range makes the line an assembly error, not a command, in every operand of every
mnemonic that takes one and whatever the other operands are (R51). -/
def Obligations.OutOfRangeOperandIsAnAssemblyError : Prop :=
  (∀ a b g : AsmOperand, a.outsideCoord ∨ b.outsideCoord ∨ g.outsideColour → ∀ m ∈ ["WRITE_PIXEL ", "DRAW_PIXEL "],
    assembleLine (m ++ a.text ++ ", " ++ b.text ++ ", " ++ g.text) = .error) ∧
  (∀ a b d g : AsmOperand, a.outsideCoord ∨ b.outsideCoord ∨ d.outsideCoord ∨ g.outsideColour →
    ∀ m ∈ ["WRITE_FAST_HLINE ", "WRITE_FAST_VLINE "],
      assembleLine (m ++ a.text ++ ", " ++ b.text ++ ", " ++ d.text ++ ", " ++ g.text) = .error) ∧
  (∀ a b d e g : AsmOperand,
    a.outsideCoord ∨ b.outsideCoord ∨ d.outsideCoord ∨ e.outsideCoord ∨ g.outsideColour →
    ∀ m ∈ ["WRITE_FILL_RECT ", "WRITE_LINE "],
      assembleLine (m ++ a.text ++ ", " ++ b.text ++ ", " ++ d.text ++ ", " ++ e.text ++ ", " ++ g.text) = .error) ∧
  ∀ a : AsmOperand, a.outsideValue → ∀ m ∈ ["SET_ROTATION ", "SET_DISPLAY_MODE ", "SELECT_DISPLAY_MODE "],
    assembleLine (m ++ a.text) = .error

/-! ### Reset and the step -/

/-- The values a successful reset loads, for every parameter setting (R107). -/
def Obligations.ResetLoadsItsValues : Prop :=
  ∀ c : Config, c.legal →
    let s := State.resetWith c true true
    s.cfg = c ∧ s.rot = 0#2 ∧ s.lw.toNat = c.pw ∧ s.lh.toNat = c.ph ∧ s.mode.toInt = -1 ∧ s.init = .ready ∧
    (∀ i < c.pw / 8 * c.ph, s.mb.read i = 0x00#8) ∧ (∀ i < c.pw / 2 * c.ph, s.gb.read i = 0x00#8) ∧
    s.commits = [] ∧ s.busy = false

/-- A reset with a failed allocation leaves INIT = FAILED, whichever request failed, and the other registers at their
reset values (R106, R108). -/
def Obligations.FailedAllocationLeavesInitFailed : Prop :=
  ∀ (c : Config) (okMono okGray : Bool),
    ((State.resetWith c okMono okGray).init = .ready ↔ okMono = true ∧ okGray = true) ∧
    ((State.resetWith c okMono okGray).init = .failed ↔ okMono = false ∨ okGray = false) ∧
    State.resetWith c okMono okGray =
      { State.resetWith c true true with init := (State.resetWith c okMono okGray).init }

/-- Every reset with legal parameters satisfies the invariant, whatever the allocation gave. -/
def Obligations.ResetSatisfiesTheInvariant : Prop :=
  ∀ (c : Config) (okMono okGray : Bool), c.legal → (State.resetWith c okMono okGray).inv

/-- Every step keeps the invariant: (LW, LH) = dims(ROT) (R17), canonical buffers with no byte outside them (R20, R25),
a mode the policy allows (R57), commit events that hold whole buffers (R87). -/
def Obligations.StepKeepsTheInvariant : Prop := ∀ s t : State, s.inv → step s = .next t → t.inv

/-- A step accepts the oldest presented command and, where it decodes, runs it: the state it runs in has the command
taken from the port and is busy with it (R23, R36, R49). -/
def Obligations.StepRunsTheDecodedCommand : Prop :=
  ∀ (s : State) (cw : CommandWord) (rest : List CommandWord) (i : Instr), s.busy = false → s.init = .ready →
    s.port = cw :: rest → decode cw = .instr i → step s = exec i { s with port := rest, busy := true }

/-- With no command presented an idle machine waits, unchanged (R109; log 4). -/
def Obligations.IdleMachineWaits : Prop := ∀ s : State, s.busy = false → s.port = [] → step s = .next s

/-- A machine whose reset failed to allocate answers every command word NOT_INITIALISED with DATA 0 and changes no
state, and no step leaves that condition: only a reset with a successful allocation gives READY (R93). -/
def Obligations.FailedMachineAnswersNotInitialised : Prop :=
  (∀ (s : State) (cw : CommandWord) (rest : List CommandWord), s.busy = false → s.init = .failed →
    s.port = cw :: rest →
    step s = .next { s with port := rest, responses := s.responses ++ [⟨.notInitialised, 0#32⟩] }) ∧
  (∀ s t : State, s.init = .failed → step s = .next t → t.init = .failed) ∧
  (∀ (c : Config) (okMono okGray : Bool),
    (State.resetWith c okMono okGray).init = .ready ↔ okMono = true ∧ okGray = true)

/-- A command presented behind others is held, not lost, and changes nothing of the step before it (R36, R112). -/
def Obligations.PresentedCommandIsHeld : Prop :=
  ∀ (s t : State) (cw : CommandWord), s.port ≠ [] → step s = .next t → step (s.present cw) = .next (t.present cw)

/-- A command is answered exactly once: from an idle machine with a command presented and a driver that serves its
request, the step takes one command from the port, gives one response and is idle again (R50, R112). -/
def Obligations.EveryCommandIsAnsweredOnce : Prop :=
  ∀ (s : State) (cw : CommandWord) (rest : List CommandWord), s.inv → s.busy = false → s.driverServes →
    s.port = cw :: rest →
    ∃ (t : State) (r : Response), step s = .next t ∧ t.port = rest ∧ t.busy = false ∧ t.responses = s.responses ++ [r]

/-- In a state of the invariant no command stops: every one answers a next state, and so does every step of a machine that
is not busy. With a driver that never completes, that SHOW and a changing SELECT_DISPLAY_MODE answer a next state, the
stuck one, is the model's choice (log 6), where R116 says 'a stuck state, not a step'. -/
def Obligations.NoCommandStopsUnderTheInvariant : Prop :=
  ∀ s : State, s.inv → (∀ i : Instr, isNext (exec i s) = true) ∧ (s.busy = false → isNext (step s) = true)

/-- A step answered with one of the statuses 0x01 to 0x04 has no effect at all: only the command has left the port and
the response is recorded (R99). -/
def Obligations.RejectedCommandHasNoEffect : Prop :=
  ∀ (s t : State) (cw : CommandWord) (rest : List CommandWord) (r : Response), s.busy = false → s.port = cw :: rest →
    step s = .next t → t.responses = s.responses ++ [r] → r.status ≠ .ok → r.status ≠ .physOutOfRange →
    t = { s with port := rest, responses := s.responses ++ [r] }

/-! ### Who may write what -/

/-- No step writes a parameter or INIT (R19, R24, R110). -/
def Obligations.NoStepWritesParametersOrInit : Prop :=
  ∀ s t : State, step s = .next t → t.cfg = s.cfg ∧ t.init = s.init

/-- ROT, LW and LH are written only by SET_ROTATION (R16, R17). -/
def Obligations.OnlySetRotationWritesRotation : Prop :=
  ∀ (i : Instr) (s t : State), (∀ v, i ≠ .setRotation v) → exec i s = .next t →
    t.rot = s.rot ∧ t.lw = s.lw ∧ t.lh = s.lh

/-- MODE is written only by SET_DISPLAY_MODE and SELECT_DISPLAY_MODE, which store their own operand or leave MODE as it
was (R18, R53). -/
def Obligations.OnlyModeCommandsWriteMode : Prop :=
  ∀ (i : Instr) (s t : State), exec i s = .next t →
    t.mode = s.mode ∨ i = .setDisplayMode t.mode ∨ i = .selectDisplayMode t.mode

/-- What reaches each buffer (R26): MB changes only under a drawing command in MODE 1 or a SELECT_DISPLAY_MODE 1 from
another mode, GB only under a drawing command in MODE 3 or a SELECT_DISPLAY_MODE of another value than 1 and MODE. -/
def Obligations.BuffersChangeOnlyAsListed : Prop :=
  ∀ (i : Instr) (s t : State), exec i s = .next t →
    (t.mb ≠ s.mb → (s.mode = 1#32 ∧ (drawnPixels i).isSome = true) ∨
      (i = .selectDisplayMode 1#32 ∧ s.mode ≠ 1#32)) ∧
    (t.gb ≠ s.gb → (s.mode = 3#32 ∧ (drawnPixels i).isSome = true) ∨
      (∃ m : Value, i = .selectDisplayMode m ∧ m ≠ 1#32 ∧ m ≠ s.mode))

/-- Only SHOW appends a commit event, and only one (R87, R88). -/
def Obligations.OnlyShowCommits : Prop :=
  ∀ (i : Instr) (s t : State), exec i s = .next t →
    t.commits = s.commits ∨ (i = .showBuffer ∧ ∃ e : CommitEvent, t.commits = s.commits ++ [e])

/-! ### Rotation, mode and the accessors -/

/-- SET_ROTATION (R55): its encoding; ROT takes the value modulo 4, and LW and LH are PW and PH for an even rotation and
PH and PW for an odd one; everything else is unchanged, and the answer is OK. -/
def Obligations.SetRotationStoresRotationAndDimensions : Prop :=
  (∀ (cw : CommandWord) (v : Value), decode cw = .instr (.setRotation v) ↔ cw = 0x10#8 ++ 0#88 ++ v) ∧
  ∀ (s : State) (v : Value), s.cfg.legal → s.init = .ready →
    ∃ t : State, exec (.setRotation v) s = .next t ∧ t.rot.toNat = v.toNat % 4 ∧
      t.lw.toNat = (if v.toNat % 2 = 0 then s.cfg.pw else s.cfg.ph) ∧
      t.lh.toNat = (if v.toNat % 2 = 0 then s.cfg.ph else s.cfg.pw) ∧
      t = { s with rot := t.rot, lw := t.lw, lh := t.lh, responses := s.responses ++ [⟨.ok, 0#32⟩], busy := false }

/-- The accessors GET_ROTATION, GET_DISPLAY_MODE, GET_WIDTH and GET_HEIGHT (R56, R60, R61, R62): their encodings, their
DATA, and no other effect. Under the dimension invariant of R17 the width and height are the physical ones, swapped at
an odd rotation. -/
def Obligations.AccessorsReadTheirRegisters : Prop :=
  (∀ cw : CommandWord, (decode cw = .instr .getRotation ↔ cw = 0x11#8 ++ 0#120) ∧
    (decode cw = .instr .getDisplayMode ↔ cw = 0x14#8 ++ 0#120) ∧
    (decode cw = .instr .getWidth ↔ cw = 0x15#8 ++ 0#120) ∧
    (decode cw = .instr .getHeight ↔ cw = 0x16#8 ++ 0#120)) ∧
  ∀ s : State, s.cfg.legal → s.dimsAgree → s.init = .ready →
    let answers (i : Instr) (d : Value) : Prop :=
      exec i s = .next { s with responses := s.responses ++ [⟨.ok, d⟩], busy := false }
    (∃ d : Value, answers .getRotation d ∧ d.toNat = s.rot.toNat ∧ d.toNat ≤ 3) ∧
    answers .getDisplayMode s.mode ∧
    (∃ d : Value, answers .getWidth d ∧ d.toNat = s.lw.toNat ∧
      d.toNat = if s.rot.toNat % 2 = 0 then s.cfg.pw else s.cfg.ph) ∧
    (∃ d : Value, answers .getHeight d ∧ d.toNat = s.lh.toNat ∧
      d.toNat = if s.rot.toNat % 2 = 0 then s.cfg.ph else s.cfg.pw)

/-- GET_ROTATION after SET_ROTATION reads the masked value, never the operand (R55, R56). -/
def Obligations.GetRotationReadsTheMaskedValue : Prop :=
  ∀ (s : State) (v : Value), s.init = .ready →
    ∃ (t u : State) (d : Value), exec (.setRotation v) s = .next t ∧ exec .getRotation t = .next u ∧
      d.toNat = v.toNat % 4 ∧ u.responses = s.responses ++ [⟨.ok, 0#32⟩, ⟨.ok, d⟩]

/-- SET_DISPLAY_MODE (R58) and mode validity (R57, R94): its encoding; a valid operand is stored in MODE and nothing
else changes, no buffer among it; an operand that is not valid, which takes the STRICT policy and a value other than
-1, 1 and 3, changes nothing and is answered INVALID_MODE with DATA = VAL. -/
def Obligations.SetDisplayModeAssignsWithoutClearing : Prop :=
  (∀ (cw : CommandWord) (m : Value), decode cw = .instr (.setDisplayMode m) ↔ cw = 0x12#8 ++ 0#88 ++ m) ∧
  ∀ (s : State) (m : Value), s.init = .ready →
    (s.cfg.modePolicy = .permissive ∨ m.toInt = -1 ∨ m.toInt = 1 ∨ m.toInt = 3 →
      exec (.setDisplayMode m) s =
        .next { s with mode := m, responses := s.responses ++ [⟨.ok, 0#32⟩], busy := false }) ∧
    (s.cfg.modePolicy = .strict ∧ m.toInt ≠ -1 ∧ m.toInt ≠ 1 ∧ m.toInt ≠ 3 →
      exec (.setDisplayMode m) s =
        .next { s with responses := s.responses ++ [⟨.invalidMode, m⟩], busy := false })

/-- SELECT_DISPLAY_MODE (R59): its encoding; the current mode changes nothing; another valid mode is stored and the new
mode's buffer, MB for 1 and GB for any other value, is filled with its clear byte (R33), the other buffer untouched; a
second one with the same mode then changes nothing; a mode that is not valid changes nothing and is answered
INVALID_MODE. A change needs a driver that completes the clear (log 5). -/
def Obligations.SelectDisplayModeClearsTheNewBuffer : Prop :=
  (∀ (cw : CommandWord) (m : Value), decode cw = .instr (.selectDisplayMode m) ↔ cw = 0x13#8 ++ 0#88 ++ m) ∧
  ∀ (s : State) (m : Value), s.init = .ready →
    let answered (u : State) : State := { u with responses := u.responses ++ [⟨.ok, 0#32⟩], busy := false }
    let valid : Prop := s.cfg.modePolicy = .permissive ∨ m.toInt = -1 ∨ m.toInt = 1 ∨ m.toInt = 3
    (valid → m = s.mode → exec (.selectDisplayMode m) s = .next (answered s)) ∧
    (valid → m ≠ s.mode → s.driverServes →
      ∃ t : State, exec (.selectDisplayMode m) s = .next t ∧
        t = { answered s with mode := m, mb := t.mb, gb := t.gb, pdServes := servesLeft s.pdServes } ∧
        (m.toInt = 1 → t.gb = s.gb ∧ t.mb.wf s.cfg.msize = true ∧
          ∀ i < s.cfg.msize, t.mb.read i = s.cfg.clearFillMono) ∧
        (m.toInt ≠ 1 → t.mb = s.mb ∧ t.gb.wf s.cfg.gsize = true ∧
          ∀ i < s.cfg.gsize, t.gb.read i = s.cfg.clearFillGray) ∧
        exec (.selectDisplayMode m) t = .next (answered t)) ∧
    (¬ valid → exec (.selectDisplayMode m) s =
      .next { s with responses := s.responses ++ [⟨.invalidMode, m⟩], busy := false })

/-! ### The pixel write -/

/-- The bounds check (R63, R73): a pixel is in bounds exactly where 0 ≤ x < LW and 0 ≤ y < LH; one that is not is
discarded by WritePixel with no change, and both pixel commands then answer OK and change nothing, no driver request
among it. -/
def Obligations.OutOfBoundsPixelIsDiscarded : Prop :=
  ∀ (s : State) (x y : Int) (c : Colour),
    (s.inBounds x y = true ↔ (0 ≤ x ∧ x < s.lw.toNat) ∧ (0 ≤ y ∧ y < s.lh.toNat)) ∧
    (x < 0 ∨ y < 0 ∨ (s.lw.toNat : Int) ≤ x ∨ (s.lh.toNat : Int) ≤ y →
      pixelWrite x y c s = .go s ∧
      (s.init = .ready → ∀ i ∈ [Instr.writePixel x y c, .drawPixel x y c],
        exec i s = .next { s with responses := s.responses ++ [⟨.ok, 0#32⟩], busy := false }))

/-- Round trip (R76): a pixel command on an in-bounds pixel that passes the range check answers OK, and its physical
pixel then reads back as the colour: in MODE 1 set exactly where the colour is not 0, in MODE 3 the low three bits of
the colour with the reserved bit 0. -/
def Obligations.WrittenPixelReadsBack : Prop :=
  ∀ (s : State) (x y : Int) (c : Colour), s.inv → s.init = .ready → s.inBounds x y = true → s.fallsOff x y = false →
    ∀ i ∈ [Instr.writePixel x y c, .drawPixel x y c],
      ∃ (t : State) (x0 y0 : Nat), exec i s = .next t ∧ t.responses = s.responses ++ [⟨.ok, 0#32⟩] ∧
        s.physical x y = ((x0 : Int), (y0 : Int)) ∧
        (s.mode.toInt = 1 → t.mPix x0 y0 = if c = 0#16 then 0#8 else 1#8) ∧
        (s.mode.toInt = 3 → (t.gPix x0 y0).toNat = c.toNat % 8 ∧ t.gRsv x0 y0 = 0#8)

/-- Non-interference (R74): a pixel command changes no register and nothing of the buffers but the bits of its one
pixel: in MODE 1 the bit mbit(x0) of the byte mbyte(x0, y0) of MB, in MODE 3 the nibble at gshift(x0) of the byte
gbyte(x0, y0) of GB, in any other mode nothing, where (x0, y0) is the translator's own coordinate. -/
def Obligations.PixelCommandChangesOnlyItsPixel : Prop :=
  ∀ (s : State) (x y : Int) (c : Colour), s.inv → s.init = .ready → s.inBounds x y = true → s.fallsOff x y = false →
    let x0 := (s.physical x y).1.toNat
    let y0 := (s.physical x y).2.toNat
    ∀ i ∈ [Instr.writePixel x y c, .drawPixel x y c],
      ∃ t : State, exec i s = .next t ∧
        t = { s with mb := t.mb, gb := t.gb, responses := s.responses ++ [⟨.ok, 0#32⟩], busy := false } ∧
        (s.mode = 1#32 → t.gb = s.gb ∧ (∀ a, a ≠ s.cfg.mbyte x0 y0 → t.mb.read a = s.mb.read a) ∧
          ∀ k, k ≠ 7 - x0 % 8 →
            (t.mb.read (s.cfg.mbyte x0 y0)).getLsbD k = (s.mb.read (s.cfg.mbyte x0 y0)).getLsbD k) ∧
        (s.mode = 3#32 → t.mb = s.mb ∧ (∀ a, a ≠ s.cfg.gbyte x0 y0 → t.gb.read a = s.gb.read a) ∧
          ∀ k, (if x0 % 2 = 0 then k < 4 else 4 ≤ k) →
            (t.gb.read (s.cfg.gbyte x0 y0)).getLsbD k = (s.gb.read (s.cfg.gbyte x0 y0)).getLsbD k) ∧
        (s.mode ≠ 1#32 → s.mode ≠ 3#32 → t.mb = s.mb ∧ t.gb = s.gb)

/-- Under LITERAL an in-bounds pixel whose transform leaves the panel is answered PHYS_OUT_OF_RANGE, with y0 in the high
half of DATA and x0 in the low half, each modulo 2^16, and changes nothing, whatever MODE is (R66, R95). -/
def Obligations.PixelOffThePanelIsAnsweredOutOfRange : Prop :=
  ∀ (s : State) (x y : Int) (c : Colour), s.init = .ready → s.cfg.rotVariant = .literal → s.inBounds x y = true →
    (∃ p : Pixel, p = s.xlateLit x y ∧ (p.1 < 0 ∨ (s.cfg.pw : Int) ≤ p.1 ∨ p.2 < 0 ∨ (s.cfg.ph : Int) ≤ p.2)) →
    ∃ d : Value, ((d.toNat / 2 ^ 16 : Nat) : Int) = (s.xlateLit x y).2 % 2 ^ 16 ∧
      ((d.toNat % 2 ^ 16 : Nat) : Int) = (s.xlateLit x y).1 % 2 ^ 16 ∧
      ∀ i ∈ [Instr.writePixel x y c, .drawPixel x y c],
        exec i s = .next { s with responses := s.responses ++ [⟨.physOutOfRange, d⟩], busy := false }

/-- Under LOGICAL the translator maps the logical rectangle one to one onto the panel, and the byte indices it leads to
exist (R65). -/
def Obligations.TranslatorIsABijectionOntoThePanel : Prop :=
  ∀ s : State, s.cfg.legal → s.dimsAgree →
    (∀ x y : Int, s.inBounds x y = true → ∃ x0 y0 : Nat, s.xlate x y = ((x0 : Int), (y0 : Int)) ∧ x0 < s.cfg.pw ∧
      y0 < s.cfg.ph ∧ s.cfg.mbyte x0 y0 < s.cfg.msize ∧ s.cfg.gbyte x0 y0 < s.cfg.gsize) ∧
    (∀ x y x' y' : Int, s.xlate x y = s.xlate x' y' → x = x' ∧ y = y') ∧
    (∀ x0 y0 : Nat, x0 < s.cfg.pw → y0 < s.cfg.ph →
      ∃ x y : Int, s.inBounds x y = true ∧ s.xlate x y = ((x0 : Int), (y0 : Int)))

/-- Under LOGICAL a pixel is in the logical bounds exactly where its image is on the panel, so that the order of the
bounds check and the transform does not matter (90_conflicts.md C5). -/
def Obligations.BoundsCheckCommutesWithTranslation : Prop :=
  ∀ (s : State) (x y : Int), s.cfg.legal → s.dimsAgree → s.inBounds x y = Config.onPanel s.cfg (s.xlate x y)

/-- On a square panel the two readings of the rotation formulas agree and the range check never fires (R66). -/
def Obligations.VariantsAgreeOnASquarePanel : Prop :=
  ∀ (s : State) (x y : Int), s.cfg.legal → s.dimsAgree → s.cfg.pw = s.cfg.ph →
    s.xlateLit x y = s.xlate x y ∧ (s.inBounds x y = true → s.fallsOff x y = false)

/-! ### The derived primitives -/

/-- The rectangle's pixel list (R78): empty where a side is not positive, so that the command writes nothing, else w·h
distinct pixels in row-major order. -/
def Obligations.RectanglePixelsAreRowMajor : Prop :=
  ∀ x y w h : Int,
    (w ≤ 0 ∨ h ≤ 0 → rectPixels x y w h = [] ∧
      ∀ (s : State) (c : Colour), s.init = .ready → exec (.writeFillRect x y w h c) s =
        .next { s with responses := s.responses ++ [⟨.ok, 0#32⟩], busy := false }) ∧
    (0 < w → 0 < h →
      ((rectPixels x y w h).length : Int) = w * h ∧ (rectPixels x y w h).Nodup ∧
      ∀ i j : Nat, (i : Int) < w → (j : Int) < h → (rectPixels x y w h)[j * w.toNat + i]? = some (x + i, y + j))

/-- The line's pixel list (R82): max(|Δx|, |Δy|) + 1 distinct pixels, both endpoints among them, and the same list for
either order of the endpoints. That it is the same list, not only the same set, rests on the left-to-right swap, which
R82 marks as general knowledge (PRESUMED, log 20). -/
def Obligations.LinePixelsJoinBothEndpoints : Prop :=
  ∀ xa ya xb yb : Int,
    ((linePixels xa ya xb yb).length : Int) = max |xb - xa| |yb - ya| + 1 ∧
    (linePixels xa ya xb yb).Nodup ∧
    (xa, ya) ∈ linePixels xa ya xb yb ∧ (xb, yb) ∈ linePixels xa ya xb yb ∧
    linePixels xb yb xa ya = linePixels xa ya xb yb

/-- A line keeps to its ideal: every pixel lies between its endpoints, in columns for a line that is not steep and runs
from left to right and in rows for a steep one that runs downwards, and at most half a pixel from the exact line across
that direction (R82: the error accumulator starts at dx >> 1, and a steep line is transposed). The sign of ystep, on
which this rests, is general knowledge in R82 (PRESUMED, log 20). -/
def Obligations.LinePixelsStayWithinHalfAPixel : Prop :=
  ∀ xa ya xb yb : Int,
    (xa < xb → |yb - ya| ≤ xb - xa → ∀ x y : Int, (x, y) ∈ linePixels xa ya xb yb →
      xa ≤ x ∧ x ≤ xb ∧ 2 * |(y - ya) * (xb - xa) - (yb - ya) * (x - xa)| ≤ xb - xa) ∧
    (ya < yb → |xb - xa| < yb - ya → ∀ x y : Int, (x, y) ∈ linePixels xa ya xb yb →
      ya ≤ y ∧ y ≤ yb ∧ 2 * |(x - xa) * (yb - ya) - (xb - xa) * (y - ya)| ≤ yb - ya)

/-- The line's pixels one by one (R82): at step k from its left end, a line that is not steep has moved
⌊(k·dy + ⌊(dx - 1)/2⌋)/dx⌋ rows towards its right end, and a steep line, transposed, has moved the mirrored number of
columns at step k from its upper end. The sign of ystep, on which this rests, is general knowledge in R82 (PRESUMED,
log 20); LinePixelsJoinBothEndpoints gives the other order of the endpoints. -/
def Obligations.LinePixelsFollowTheErrorAccumulator : Prop :=
  ∀ xa ya xb yb : Int,
    (xa < xb → |yb - ya| ≤ xb - xa → ∀ k : Nat, (k : Int) ≤ xb - xa →
      (linePixels xa ya xb yb)[k]? =
        some (xa + k, ya + (yb - ya).sign * ((k * |yb - ya| + (xb - xa - 1) / 2) / (xb - xa)))) ∧
    (ya < yb → |xb - xa| < yb - ya → ∀ k : Nat, (k : Int) ≤ yb - ya →
      (linePixels xa ya xb yb)[k]? =
        some (xa + (xb - xa).sign * ((k * |xb - xa| + (yb - ya - 1) / 2) / (yb - ya)), ya + k))

/-- The rectangle and run commands paint exactly their pixels (R77 to R81): where every in-bounds pixel passes the range
check, which under LOGICAL each does, the command answers OK, the panel's pixels under the in-bounds pixels of the
rectangle take the colour, and every other pixel, the other buffer and every register stay as they were. -/
def Obligations.RectangleCommandsPaintExactly : Prop :=
  ∀ (s : State) (x y w h : Int) (c : Colour), s.inv → s.init = .ready →
    ∀ (i : Instr) (w' h' : Int),
      (i = .writeFillRect x y w h c ∧ w' = w ∧ h' = h) ∨ (i = .writeFastHLine x y w c ∧ w' = w ∧ h' = 1) ∨
        (i = .writeFastVLine x y h c ∧ w' = 1 ∧ h' = h) →
      (s.cfg.rotVariant = .logical ∨
        ∀ px py : Int, x ≤ px → px < x + w' → y ≤ py → py < y + h' → s.lands (px, py)) →
      ∃ (t : State) (ps : List Pixel), exec i s = .next t ∧
        (∀ px py : Int, (px, py) ∈ ps ↔ (x ≤ px ∧ px < x + w') ∧ (y ≤ py ∧ py < y + h')) ∧
        t = { s with mb := t.mb, gb := t.gb, responses := s.responses ++ [⟨.ok, 0#32⟩], busy := false } ∧
        s.paintedAs ps c t

/-- WRITE_LINE and the pixel commands paint exactly their pixels (R71, R72, R82, R83), in the same sense. -/
def Obligations.LineAndPixelCommandsPaintExactly : Prop :=
  ∀ (s : State) (x y x1 y1 : Int) (c : Colour), s.inv → s.init = .ready →
    ∀ (i : Instr) (ps : List Pixel),
      (i = .writeLine x y x1 y1 c ∧ ps = linePixels x y x1 y1) ∨ (i = .writePixel x y c ∧ ps = [(x, y)]) ∨
        (i = .drawPixel x y c ∧ ps = [(x, y)]) →
      (s.cfg.rotVariant = .logical ∨ ∀ p ∈ ps, s.lands p) →
      ∃ t : State, exec i s = .next t ∧
        t = { s with mb := t.mb, gb := t.gb, responses := s.responses ++ [⟨.ok, 0#32⟩], busy := false } ∧
        s.paintedAs ps c t

/-- Under LOGICAL the state a primitive leaves does not depend on the order of its pixel list (R86). -/
def Obligations.PixelOrderDoesNotMatter : Prop :=
  ∀ (s : State) (c : Colour) (ps qs : List Pixel), s.inv → s.cfg.rotVariant = .logical → ps.Perm qs →
    expand c ps s = expand c qs s

/-- A primitive stops at its first pixel off the panel (R77, R95, R99): with the pixels before it landing, the command
answers PHYS_OUT_OF_RANGE with that pixel's coordinate, exactly the pixels before it are painted, and nothing else of
the machine changes. -/
def Obligations.PrimitiveStopsAtTheFirstPixelOffThePanel : Prop :=
  ∀ (s : State) (i : Instr) (c : Colour) (ps qs : List Pixel) (p : Pixel), s.inv → s.init = .ready →
    ((∃ x y w, i = .writeFastHLine x y w c) ∨ (∃ x y h, i = .writeFastVLine x y h c) ∨
      (∃ x y w h, i = .writeFillRect x y w h c) ∨ (∃ x0 y0 x1 y1, i = .writeLine x0 y0 x1 y1 c)) →
    drawnPixels i = some (ps ++ p :: qs) → (∀ q ∈ ps, s.lands q) → ¬ s.lands p →
    ∃ t : State,
      exec i s = .next t ∧
      t = { s with
        mb := t.mb, gb := t.gb, busy := false,
        responses := s.responses ++
          [⟨.physOutOfRange, BitVec.ofInt 16 (s.physical p.1 p.2).2 ++ BitVec.ofInt 16 (s.physical p.1 p.2).1⟩] } ∧
      s.paintedAs ps c t

/-- START_WRITE and END_WRITE (R84, R85): their encodings; they answer OK and change nothing. -/
def Obligations.BracketsChangeNothing : Prop :=
  (∀ cw : CommandWord, (decode cw = .instr .startWrite ↔ cw = 0x07#8 ++ 0#120) ∧
    (decode cw = .instr .endWrite ↔ cw = 0x08#8 ++ 0#120)) ∧
  ∀ s : State, s.init = .ready → ∀ i ∈ [Instr.startWrite, .endWrite],
    exec i s = .next { s with responses := s.responses ++ [⟨.ok, 0#32⟩], busy := false }

/-! ### Commit, the panel driver and observation -/

/-- SHOW (R87, R88): its encoding; with a driver that completes the request (log 5) it appends one commit event with the
bytes of MB in MODE 1 and of GB in every other mode, in increasing index, changes no register and no buffer, and
answers OK. -/
def Obligations.ShowCommitsTheActiveBuffer : Prop :=
  (∀ cw : CommandWord, decode cw = .instr .showBuffer ↔ cw = 0x20#8 ++ 0#120) ∧
  ∀ s : State, s.init = .ready → s.driverServes →
    ∃ e : CommitEvent,
      exec .showBuffer s = .next { s with
        commits := s.commits ++ [e], pdServes := servesLeft s.pdServes,
        responses := s.responses ++ [⟨.ok, 0#32⟩], busy := false } ∧
      (s.mode.toInt = 1 → e.sel = .mono ∧ e.bytes.length = s.cfg.msize ∧
        ∀ k < s.cfg.msize, e.bytes[k]? = some (s.mb.read k)) ∧
      (s.mode.toInt ≠ 1 → e.sel = .gray ∧ e.bytes.length = s.cfg.gsize ∧
        ∀ k < s.cfg.gsize, e.bytes[k]? = some (s.gb.read k))

/-- Two SHOWs in a row leave every register and buffer unchanged and append two equal events (R89). -/
def Obligations.TwoShowsCommitTheSameBytes : Prop :=
  ∀ s : State, s.init = .ready → (s.pdServes = none ∨ ∃ n, s.pdServes = some (n + 2)) →
    ∃ (t u : State) (e : CommitEvent), exec .showBuffer s = .next t ∧ exec .showBuffer t = .next u ∧
      u = { s with
        commits := s.commits ++ [e, e], pdServes := u.pdServes, busy := false,
        responses := s.responses ++ [⟨.ok, 0#32⟩, ⟨.ok, 0#32⟩] }

/-- A driver that never completes a request leaves FBCORE busy for good (R116; the state it is left in is the model's
choice, log 6): SHOW and a mode-changing SELECT_DISPLAY_MODE give no response and commit nothing, and no step follows. -/
def Obligations.SilentDriverLeavesTheMachineBusy : Prop :=
  (∀ s : State, s.init = .ready → s.pdServes = some 0 → exec .showBuffer s = .next { s with busy := true }) ∧
  (∀ (s : State) (m : Value), s.init = .ready → s.pdServes = some 0 → m ≠ s.mode →
    (s.cfg.modePolicy = .permissive ∨ m.toInt = -1 ∨ m.toInt = 1 ∨ m.toInt = 3) →
    exec (.selectDisplayMode m) s = .next { s with mode := m, busy := true }) ∧
  (∀ s : State, s.busy = true → step s = .fault .panelNeverCompletes)

/-- The observation port (R101, R108, R113): an idle machine's registers read as they are, whatever INIT is; a buffer
byte reads as it is where INIT = READY and it exists, and reading it is a fault where INIT = FAILED; a read of a busy
machine is refused (log 12). -/
def Obligations.ObservationReadsTheState : Prop :=
  ∀ s : State,
    (s.busy = false → observeReg .rot s = .value (s.rot.setWidth 32) ∧ observeReg .lw s = .value (s.lw.setWidth 32) ∧
      observeReg .lh s = .value (s.lh.setWidth 32) ∧ observeReg .mode s = .value s.mode ∧
      observeReg .init s = .value (if s.init = .ready then 1#32 else 0#32) ∧
      (s.init = .ready → (∀ i < s.cfg.msize, observeByte .mono i s = .value (s.mb.read i)) ∧
        ∀ i < s.cfg.gsize, observeByte .gray i s = .value (s.gb.read i)) ∧
      (s.init = .failed → ∀ sel i, observeByte sel i s = .fault .bufferHoldsNoValue)) ∧
    (s.busy = true → (∀ r, observeReg r s = .refused .observedWhileBusy) ∧
      ∀ sel i, observeByte sel i s = .refused .observedWhileBusy)

/-! ### The buffers -/

/-- A byte written reads back, every other byte is as it was, and the canonical form is kept (R25, R32). -/
def Obligations.BufferReadsWhatWasWritten : Prop :=
  ∀ (size i j : Nat) (v : Byte) (m : Memory), m.wf size = true → i < size →
    (m.write i v).wf size = true ∧ (m.write i v).read j = if j = i then v else m.read j

/-- Two canonical buffers with the same bytes are the same data, so that equality of states is equality of bytes. -/
def Obligations.EqualBytesAreEqualBuffers : Prop :=
  ∀ (size : Nat) (m m' : Memory), m.wf size = true → m'.wf size = true →
    (m.bytes size = m'.bytes size ↔ m = m')
end

