-- ==== Sys2Proof/Laws/Assembler.lean ====
section
/-! SUPPORT. What the assembler makes of a line in its plain spelling (R51): the text of an operand reads back as the
operand, and a mnemonic with operands between commas comes apart into them. -/

namespace Sys2Proof.Machine

/-! ### Digits -/

theorem digitOf_digitChar {base d : Nat} (hb : base ≤ 16) (hd : d < base) : digitOf base (Nat.digitChar d) = some d := by
  have h : ∀ d : Fin 16, ∀ base : Fin 17, d.val < base.val → digitOf base.val (Nat.digitChar d.val) = some d.val := by
    decide
  exact h ⟨d, by omega⟩ ⟨base, by omega⟩ hd

theorem digitsFrom_append (base : Nat) (cs ds : List Char) (acc : Nat) :
    digitsFrom base acc (cs ++ ds) = (digitsFrom base acc cs).bind fun n => digitsFrom base n ds := by
  induction cs generalizing acc with
  | nil => rfl
  | cons c cs ih =>
    simp only [List.cons_append, digitsFrom]
    cases digitOf base c with
    | none => rfl
    | some d => exact ih _

/-- The digits of a number read back as the number. -/
theorem digitsFrom_toDigits {base : Nat} (h1 : 1 < base) (hb : base ≤ 16) (n : Nat) :
    digitsFrom base 0 (Nat.toDigits base n) = some n := by
  induction n using Nat.strongRecOn with
  | ind n ih =>
    rw [Nat.toDigits_eq_if h1]
    split
    · rename_i h
      simp [digitsFrom, digitOf_digitChar hb h]
    · have hm : n % base < base := Nat.mod_lt _ (by omega)
      rw [digitsFrom_append, ih (n / base) (Nat.div_lt_self (by omega) h1)]
      simp [digitsFrom, digitOf_digitChar hb hm, Nat.div_add_mod']

theorem toDigits_ne_nil {base : Nat} (h1 : 1 < base) (n : Nat) : Nat.toDigits base n ≠ [] := by
  rw [Nat.toDigits_eq_if h1]
  split <;> simp

theorem digitsOf_toDigits {base : Nat} (h1 : 1 < base) (hb : base ≤ 16) (n : Nat) :
    digitsOf base (Nat.toDigits base n) = some n := by
  rw [← digitsFrom_toDigits h1 hb n]
  cases h : Nat.toDigits base n with
  | nil => exact absurd h (toDigits_ne_nil h1 n)
  | cons c cs => rfl

/-- Every digit's character is that of a number below the base. -/
theorem mem_toDigits {base : Nat} (h1 : 1 < base) (n : Nat) {ch : Char} (h : ch ∈ Nat.toDigits base n) :
    ∃ d < base, ch = Nat.digitChar d := by
  induction n using Nat.strongRecOn with
  | ind n ih =>
    rw [Nat.toDigits_eq_if h1] at h
    split at h
    · rename_i hn
      exact ⟨n, hn, by simpa using h⟩
    · rcases List.mem_append.mp h with h | h
      · exact ih (n / base) (Nat.div_lt_self (by omega) h1) h
      · exact ⟨n % base, Nat.mod_lt _ (by omega), by simpa using h⟩

/-! ### Clean text -/

/-- A character that neither separates operands nor starts a comment. -/
def cleanChar (ch : Char) : Bool := !isBlank ch && ch != ',' && ch != ';'

/-- A text that stands between two separators. -/
abbrev cleanText (cs : List Char) : Prop := cs ≠ [] ∧ ∀ ch ∈ cs, cleanChar ch = true

theorem cleanChar_digitChar {d : Nat} (h : d < 16) : cleanChar (Nat.digitChar d) = true := by
  have : ∀ d : Fin 16, cleanChar (Nat.digitChar d.val) = true := by decide
  exact this ⟨d, h⟩

theorem cleanText_toDigits {base : Nat} (h1 : 1 < base) (hb : base ≤ 16) (n : Nat) : cleanText (Nat.toDigits base n) := by
  refine ⟨toDigits_ne_nil h1 n, fun ch h => ?_⟩
  obtain ⟨d, hd, rfl⟩ := mem_toDigits h1 n h
  exact cleanChar_digitChar (by omega)

theorem toList_toString_nat (n : Nat) : (Nat.repr n).toList = Nat.toDigits 10 n := Nat.toList_repr

/-- A decimal number's characters: its digits, after a minus sign if it is negative. -/
theorem toList_toString_int (v : Int) :
    (toString v).toList = if 0 ≤ v then Nat.toDigits 10 v.toNat else '-' :: Nat.toDigits 10 (-v).toNat := by
  rw [Int.toString_eq_repr, Int.repr_eq_if]
  split
  · exact Nat.toList_repr
  · rw [String.toList_append, Nat.toList_repr]; rfl

theorem toList_hex (n : Nat) : (AsmOperand.hex n).text.toList = '0' :: 'x' :: Nat.toDigits 16 n := by
  rw [AsmOperand.text, String.toList_append, String.toList_ofList (l := Nat.toDigits 16 n)]; rfl

theorem AsmOperand.text_clean (a : AsmOperand) : cleanText a.text.toList := by
  cases a with
  | dec v =>
    rw [AsmOperand.text, toList_toString_int]
    split
    · exact cleanText_toDigits (by omega) (by omega) _
    · refine ⟨by simp, fun ch h => ?_⟩
      rcases List.mem_cons.mp h with rfl | h
      · decide
      · exact (cleanText_toDigits (by omega) (by omega) _).2 ch h
  | hex n =>
    rw [toList_hex]
    refine ⟨by simp, fun ch h => ?_⟩
    rcases List.mem_cons.mp h with rfl | h
    · decide
    · rcases List.mem_cons.mp h with rfl | h
      · decide
      · exact (cleanText_toDigits (by omega) (by omega) _).2 ch h
  | mode v =>
    rw [AsmOperand.text]
    split
    · exact (⟨List.cons_ne_nil _ _, by simp [cleanChar, isBlank]⟩ : cleanText ['U', 'N', 'I', 'N', 'I', 'T'])
    · split
      · exact (⟨List.cons_ne_nil _ _, by simp [cleanChar, isBlank]⟩ : cleanText ['M', 'O', 'N', 'O'])
      · exact (⟨List.cons_ne_nil _ _, by simp [cleanChar, isBlank]⟩ : cleanText ['G', 'R', 'A', 'Y'])

/-- A text of decimal digits is read as a decimal number. -/
theorem operandOf_decimal (n : Nat) : operandOf (Nat.toDigits 10 n) = some (.dec n) := by
  have hno : ∀ ch ∈ ['x', '-', 'U', 'M', 'G'], ch ∉ Nat.toDigits 10 n := by
    intro ch hch h
    obtain ⟨d, hd, rfl⟩ := mem_toDigits (by omega) n h
    have : ∀ d : Fin 10, Nat.digitChar d.val ∉ ['x', '-', 'U', 'M', 'G'] := by decide
    exact this ⟨d, hd⟩ hch
  have hd := digitsOf_toDigits (base := 10) (by omega) (by omega) n
  generalize Nat.toDigits 10 n = cs at *
  unfold operandOf
  split
  · exact absurd (by simp) (hno 'x' (by simp))
  · exact absurd (by simp) (hno '-' (by simp))
  · rw [if_neg (fun h => hno 'U' (by simp) (by simp [h])), if_neg (fun h => hno 'M' (by simp) (by simp [h])),
      if_neg (fun h => hno 'G' (by simp) (by simp [h])), hd]
    rfl

/-- The text of a number reads back as the operand. -/
theorem operandOf_dec (v : Int) : operandOf (AsmOperand.dec v).text.toList = some (.dec v) := by
  rw [AsmOperand.text, toList_toString_int]
  split
  · rw [operandOf_decimal, Int.toNat_of_nonneg ‹_›]
  · simp only [operandOf, digitsOf_toDigits (base := 10) (by omega) (by omega)]
    show some (AsmOperand.dec (-((-v).toNat : Int))) = _
    rw [show (-((-v).toNat : Int)) = v by omega]

theorem operandOf_hex (n : Nat) : operandOf (AsmOperand.hex n).text.toList = some (.hex n) := by
  rw [toList_hex]
  simp only [operandOf, digitsOf_toDigits (base := 16) (by omega) (by omega), Option.map_some]

theorem operandOf_mode {v : Int} (h : v = -1 ∨ v = 1 ∨ v = 3) :
    operandOf (AsmOperand.mode v).text.toList = some (.mode v) := by
  rcases h with rfl | rfl | rfl <;> decide

/-- Everything an operand's text can read back as: the operand, or GRAY for a mode that is none of the three. -/
theorem operandOf_text (a : AsmOperand) : operandOf a.text.toList = some a ∨
    ((∃ v, a = .mode v) ∧ operandOf a.text.toList = some (.mode 3)) := by
  cases a with
  | dec v => exact .inl (operandOf_dec v)
  | hex n => exact .inl (operandOf_hex n)
  | mode v =>
    by_cases h : v = -1 ∨ v = 1 ∨ v = 3
    · exact .inl (operandOf_mode h)
    · refine .inr ⟨⟨v, rfl⟩, ?_⟩
      have h1 : v ≠ -1 := fun e => h (.inl e)
      have h2 : v ≠ 1 := fun e => h (.inr (.inl e))
      rw [AsmOperand.text, if_neg h1, if_neg h2]
      decide

/-! ### Taking a line apart -/

theorem trimBlanks_of_ends {cs : List Char} (hh : ∀ ch ∈ cs.head?, isBlank ch = false)
    (hl : ∀ ch ∈ cs.getLast?, isBlank ch = false) : trimBlanks cs = cs := by
  have drop : ∀ ds : List Char, (∀ ch ∈ ds.head?, isBlank ch = false) → ds.dropWhile isBlank = ds := by
    intro ds h
    cases ds with
    | nil => rfl
    | cons d ds => rw [List.dropWhile_cons_of_neg]; simp [h d rfl]
  rw [trimBlanks, drop cs hh, drop cs.reverse (by rwa [List.head?_reverse]), List.reverse_reverse]

theorem isBlank_of_clean {ch : Char} (h : cleanChar ch = true) : isBlank ch = false := by
  simp only [cleanChar, Bool.and_eq_true, Bool.not_eq_true'] at h
  exact h.1.1

theorem trimBlanks_clean {cs : List Char} (h : ∀ ch ∈ cs, cleanChar ch = true) : trimBlanks cs = cs :=
  trimBlanks_of_ends (fun ch hc => isBlank_of_clean (h ch (List.mem_of_mem_head? hc)))
    (fun ch hc => isBlank_of_clean (h ch (List.mem_of_getLast? hc)))

theorem trimBlanks_blank_cons (cs : List Char) : trimBlanks (' ' :: cs) = trimBlanks cs := rfl

theorem cutAtCommas_ne_nil (cs : List Char) : cutAtCommas cs ≠ [] := by
  cases cs with
  | nil => simp [cutAtCommas]
  | cons c cs =>
    rw [cutAtCommas]
    split
    · simp
    · split <;> simp

theorem cutAtCommas_comma (cs : List Char) : cutAtCommas (',' :: cs) = [] :: cutAtCommas cs := by
  rw [cutAtCommas]
  split
  · exact absurd ‹_› (cutAtCommas_ne_nil cs)
  · rw [if_pos rfl, ‹cutAtCommas cs = _›]

/-- A text without a comma goes to the front of the first part. -/
theorem cutAtCommas_append {t : List Char} (ht : ∀ ch ∈ t, ch ≠ ',') (cs part : List Char) (parts : List (List Char))
    (h : cutAtCommas cs = part :: parts) : cutAtCommas (t ++ cs) = (t ++ part) :: parts := by
  induction t with
  | nil => exact h
  | cons c t ih =>
    rw [List.cons_append, cutAtCommas, ih fun ch hc => ht ch (List.mem_cons_of_mem _ hc)]
    simp [ht c (List.mem_cons_self ..)]

/-- Operands with a comma and a space between them. -/
def joinOperands : List (List Char) → List Char
  | [] => []
  | [t] => t
  | t :: u :: us => t ++ ',' :: ' ' :: joinOperands (u :: us)

theorem comma_of_clean {t : List Char} (h : cleanText t) : ∀ ch ∈ t, ch ≠ ',' := by
  intro ch hc
  have := h.2 ch hc
  simp only [cleanChar, Bool.and_eq_true, bne_iff_ne] at this
  exact this.1.2

theorem cutAtCommas_joinOperands (t : List Char) (ts : List (List Char)) (h : ∀ u ∈ t :: ts, cleanText u) :
    cutAtCommas (' ' :: joinOperands (t :: ts)) = (t :: ts).map (' ' :: ·) := by
  have blank : ∀ u ∈ t :: ts, ∀ ch ∈ ' ' :: u, ch ≠ ',' := by
    intro u hu ch hc
    rcases List.mem_cons.mp hc with rfl | hc
    · decide
    · exact comma_of_clean (h u hu) ch hc
  induction ts generalizing t with
  | nil =>
    have := cutAtCommas_append (blank t (by simp)) [] [] [] rfl
    simpa [joinOperands] using this
  | cons u us ih =>
    have rest := ih u (fun v hv => h v (List.mem_cons_of_mem _ hv)) (fun v hv => blank v (List.mem_cons_of_mem _ hv))
    have := cutAtCommas_append (blank t (by simp)) (',' :: ' ' :: joinOperands (u :: us)) [] _
      ((cutAtCommas_comma _).trans (congrArg _ rest))
    simpa [joinOperands] using this

theorem joinOperands_ends (t : List Char) (ts : List (List Char)) (h : ∀ u ∈ t :: ts, cleanText u) :
    joinOperands (t :: ts) ≠ [] ∧ (∀ ch ∈ (joinOperands (t :: ts)).head?, isBlank ch = false) ∧
      (∀ ch ∈ (joinOperands (t :: ts)).getLast?, isBlank ch = false) ∧
      ∀ ch ∈ joinOperands (t :: ts), ch ≠ ';' := by
  have semi : ∀ u : List Char, cleanText u → ∀ ch ∈ u, ch ≠ ';' := by
    intro u hu ch hc
    have := hu.2 ch hc
    simp only [cleanChar, Bool.and_eq_true, bne_iff_ne] at this
    exact this.2
  have head : ∀ u : List Char, cleanText u → ∀ rest, ∀ ch ∈ (u ++ rest).head?, isBlank ch = false := by
    intro u hu rest ch hc
    cases u with
    | nil => exact absurd rfl hu.1
    | cons c u =>
      simp only [List.cons_append, List.head?_cons, Option.mem_some_iff] at hc
      exact isBlank_of_clean (hc ▸ hu.2 c (by simp))
  induction ts generalizing t with
  | nil =>
    have ht := h t (by simp)
    refine ⟨ht.1, ?_, fun ch hc => isBlank_of_clean (ht.2 ch (List.mem_of_getLast? hc)), semi t ht⟩
    intro ch hc
    exact head t ht [] ch (by simpa [joinOperands] using hc)
  | cons u us ih =>
    have ht := h t (by simp)
    obtain ⟨hne, -, hl, hs⟩ := ih u fun v hv => h v (List.mem_cons_of_mem _ hv)
    refine ⟨by simp [joinOperands], head t ht _, ?_, ?_⟩
    · intro ch hc
      refine hl ch ?_
      rw [joinOperands, List.getLast?_append, List.getLast?_cons_cons, List.getLast?_cons,
        List.getLast?_eq_getLast_of_ne_nil hne] at hc
      rw [List.getLast?_eq_getLast_of_ne_nil hne]
      simpa [List.getLast_cons hne] using hc
    · intro ch hc
      rw [joinOperands, List.mem_append, List.mem_cons, List.mem_cons] at hc
      rcases hc with hc | rfl | rfl | hc
      · exact semi t ht ch hc
      · decide
      · decide
      · exact hs ch hc

theorem operandsOf_joinOperands (t : List Char) (ts : List (List Char)) (h : ∀ u ∈ t :: ts, cleanText u) :
    operandsOf (' ' :: joinOperands (t :: ts)) = (t :: ts).mapM operandOf := by
  obtain ⟨hne, hh, hl, -⟩ := joinOperands_ends t ts h
  rw [operandsOf, trimBlanks_blank_cons, trimBlanks_of_ends hh hl, if_neg hne, cutAtCommas_joinOperands t ts h]
  rw [List.mapM_map]
  have : ∀ us : List (List Char), (∀ u ∈ us, cleanText u) →
      us.mapM (fun u => operandOf (trimBlanks (' ' :: u))) = us.mapM operandOf := by
    intro us hus
    induction us with
    | nil => rfl
    | cons u us ih =>
      rw [List.mapM_cons, List.mapM_cons, trimBlanks_blank_cons, trimBlanks_clean (hus u (by simp)).2,
        ih fun v hv => hus v (List.mem_cons_of_mem _ hv)]
  exact this _ h

/-- What a parsed line comes to. -/
def assembledOf : Option Instr → Assembled
  | some i => .command i
  | none => .error

/-- A line in the plain spelling assembles as its mnemonic with its operands. -/
theorem assembleChars_joinOperands {m : List Char} (hm : cleanText m) (t : List Char) (ts : List (List Char))
    (h : ∀ u ∈ t :: ts, cleanText u) :
    assembleChars (m ++ ' ' :: joinOperands (t :: ts)) =
      assembledOf (((t :: ts).mapM operandOf).bind (assembleParts (String.ofList m))) := by
  obtain ⟨hne, -, hl, hs⟩ := joinOperands_ends t ts h
  have hsemi : (m ++ ' ' :: joinOperands (t :: ts)).takeWhile (fun ch => ch != ';') = m ++ ' ' :: joinOperands (t :: ts) := by
    rw [List.takeWhile_eq_self_iff]
    intro ch hc
    rw [bne_iff_ne]
    rcases List.mem_append.mp hc with hc | hc
    · have := hm.2 ch hc
      simp only [cleanChar, Bool.and_eq_true, bne_iff_ne] at this
      exact this.2
    · rcases List.mem_cons.mp hc with rfl | hc
      · decide
      · exact hs ch hc
  have htrim : trimBlanks (m ++ ' ' :: joinOperands (t :: ts)) = m ++ ' ' :: joinOperands (t :: ts) := by
    refine trimBlanks_of_ends (fun ch hc => ?_) (fun ch hc => ?_)
    · obtain ⟨c, m', rfl⟩ := List.exists_cons_of_ne_nil hm.1
      simp only [List.cons_append, List.head?_cons, Option.mem_some_iff] at hc
      exact isBlank_of_clean (hc ▸ hm.2 c (by simp))
    · refine hl ch ?_
      rw [List.getLast?_append, List.getLast?_cons, List.getLast?_eq_getLast_of_ne_nil hne] at hc
      rw [List.getLast?_eq_getLast_of_ne_nil hne]
      simpa using hc
  have hnb : ∀ ch ∈ m, (!isBlank ch) = true := fun ch hc => by rw [isBlank_of_clean (hm.2 ch hc)]; rfl
  have htake : (m ++ ' ' :: joinOperands (t :: ts)).takeWhile (fun ch => !isBlank ch) = m := by
    rw [List.takeWhile_append_of_pos hnb, List.takeWhile_cons_of_neg (by decide), List.append_nil]
  have hdrop : (m ++ ' ' :: joinOperands (t :: ts)).dropWhile (fun ch => !isBlank ch) = ' ' :: joinOperands (t :: ts) := by
    rw [List.dropWhile_append_of_pos hnb, List.dropWhile_cons_of_neg (by decide)]
  unfold assembleChars
  simp only [hsemi, htrim, htake, hdrop, operandsOf_joinOperands t ts h]
  rw [if_neg (by simp)]
  cases ((t :: ts).mapM operandOf).bind (assembleParts (String.ofList m)) <;> rfl

/-- A word of clean characters, as a test that evaluates. -/
theorem cleanText_of_all {s : String} (h : s.toList.isEmpty = false ∧ s.toList.all cleanChar = true) :
    cleanText s.toList :=
  ⟨fun e => by simp [e] at h, fun ch hc => List.all_eq_true.mp h.2 ch hc⟩

/-- The same, with the operands as operands. -/
theorem assembleChars_operands {m : String} (hm : cleanText m.toList) (a : AsmOperand) (as : List AsmOperand) :
    assembleChars (m.toList ++ ' ' :: joinOperands ((a :: as).map fun b => b.text.toList)) =
      assembledOf ((((a :: as).map fun b => b.text.toList).mapM operandOf).bind (assembleParts m)) := by
  have h := assembleChars_joinOperands hm a.text.toList (as.map fun b => b.text.toList) fun u hu => by
    rcases List.mem_cons.mp hu with rfl | hu
    · exact a.text_clean
    · obtain ⟨b, -, rfl⟩ := List.mem_map.mp hu
      exact b.text_clean
  rwa [String.ofList_toList] at h

/-- A comment does not change what a line assembles to. -/
theorem assembleLine_comment (line comment : String) : assembleLine (line ++ ";" ++ comment) = assembleLine line := by
  have : ∀ cs ds : List Char, (cs ++ ';' :: ds).takeWhile (fun ch => ch != ';') = cs.takeWhile (fun ch => ch != ';') := by
    intro cs ds
    induction cs with
    | nil => rfl
    | cons c cs ih => simp only [List.cons_append, List.takeWhile_cons, ih]
  have hl : (line ++ ";" ++ comment).toList = line.toList ++ ';' :: comment.toList := by
    simp [String.toList_append]
  unfold assembleLine assembleChars
  rw [hl, this]

/-! ### What an operand's reading gives -/

theorem AsmOperand.coord_of_means {a : AsmOperand} {v : Int} (h : a.meansCoord v) : a.coord = some v := by
  cases a with
  | dec w => obtain ⟨rfl, h⟩ := h; exact if_pos h
  | hex n =>
    obtain ⟨h, rfl⟩ := h
    rw [AsmOperand.coord, if_pos h, sext16, BitVec.toInt_eq_toNat_cond, BitVec.toNat_ofNat, Nat.mod_eq_of_lt h]
    split <;> split <;> first | rfl | omega
  | mode w => exact h.elim

theorem AsmOperand.colour_of_means {a : AsmOperand} {c : Colour} (h : a.meansColour c) : a.colour = some c := by
  have := c.isLt
  cases a with
  | dec w =>
    obtain rfl : w = c.toNat := h
    rw [AsmOperand.colour, if_pos (by omega), BitVec.ofInt_natCast, BitVec.ofNat_toNat, BitVec.setWidth_eq]
  | hex n =>
    obtain rfl : n = c.toNat := h
    rw [AsmOperand.colour, if_pos (by omega), BitVec.ofNat_toNat, BitVec.setWidth_eq]
  | mode w => exact h.elim

theorem AsmOperand.rotation_of_means {a : AsmOperand} {v : Value} (h : a.meansValue v) : a.rotation = some v := by
  have := v.isLt
  cases a with
  | dec w =>
    obtain ⟨hr, hv⟩ := h
    rw [AsmOperand.rotation, if_pos hr]
    congr 1
    apply BitVec.eq_of_toNat_eq
    rw [BitVec.toNat_ofInt]
    omega
  | hex n =>
    obtain rfl : n = v.toNat := h
    rw [AsmOperand.rotation, if_pos (by omega), BitVec.ofNat_toNat, BitVec.setWidth_eq]
  | mode w => exact h.elim

theorem AsmOperand.modeValue_of_means {a : AsmOperand} {m : Value} (h : a.meansMode m) : a.modeValue = some m := by
  cases a with
  | dec w => exact AsmOperand.rotation_of_means (a := .dec w) h
  | hex n => exact AsmOperand.rotation_of_means (a := .hex n) h
  | mode w => obtain ⟨-, rfl⟩ := h; rw [AsmOperand.modeValue, BitVec.ofInt_toInt]

theorem AsmOperand.coord_of_outside {a : AsmOperand} (h : a.outsideCoord) : a.coord = none := by
  cases a with
  | dec w => exact if_neg (by simp only [AsmOperand.outsideCoord] at h; omega)
  | hex n => exact if_neg (by simp only [AsmOperand.outsideCoord] at h; omega)
  | mode w => exact h.elim

theorem AsmOperand.colour_of_outside {a : AsmOperand} (h : a.outsideColour) : a.colour = none := by
  cases a with
  | dec w => exact if_neg (by simp only [AsmOperand.outsideColour] at h; omega)
  | hex n => exact if_neg (by simp only [AsmOperand.outsideColour] at h; omega)
  | mode w => exact h.elim

theorem AsmOperand.rotation_of_outside {a : AsmOperand} (h : a.outsideValue) : a.rotation = none := by
  cases a with
  | dec w => exact if_neg (by simp only [AsmOperand.outsideValue] at h; omega)
  | hex n => exact if_neg (by simp only [AsmOperand.outsideValue] at h; omega)
  | mode w => exact h.elim

theorem AsmOperand.modeValue_of_outside {a : AsmOperand} (h : a.outsideValue) : a.modeValue = none := by
  cases a with
  | dec w => exact AsmOperand.rotation_of_outside (a := .dec w) h
  | hex n => exact AsmOperand.rotation_of_outside (a := .hex n) h
  | mode w => exact h.elim

/-! ### The command of a mnemonic and its operands -/

@[simp] theorem assembleParts_writePixel (x y c : AsmOperand) : assembleParts "WRITE_PIXEL" [x, y, c] =
    (do return .writePixel (← x.coord) (← y.coord) (← c.colour)) := rfl
@[simp] theorem assembleParts_drawPixel (x y c : AsmOperand) : assembleParts "DRAW_PIXEL" [x, y, c] =
    (do return .drawPixel (← x.coord) (← y.coord) (← c.colour)) := rfl
@[simp] theorem assembleParts_writeFastHLine (x y w c : AsmOperand) : assembleParts "WRITE_FAST_HLINE" [x, y, w, c] =
    (do return .writeFastHLine (← x.coord) (← y.coord) (← w.coord) (← c.colour)) := rfl
@[simp] theorem assembleParts_writeFastVLine (x y h c : AsmOperand) : assembleParts "WRITE_FAST_VLINE" [x, y, h, c] =
    (do return .writeFastVLine (← x.coord) (← y.coord) (← h.coord) (← c.colour)) := rfl
@[simp] theorem assembleParts_writeFillRect (x y w h c : AsmOperand) : assembleParts "WRITE_FILL_RECT" [x, y, w, h, c] =
    (do return .writeFillRect (← x.coord) (← y.coord) (← w.coord) (← h.coord) (← c.colour)) := rfl
@[simp] theorem assembleParts_writeLine (x0 y0 x1 y1 c : AsmOperand) : assembleParts "WRITE_LINE" [x0, y0, x1, y1, c] =
    (do return .writeLine (← x0.coord) (← y0.coord) (← x1.coord) (← y1.coord) (← c.colour)) := rfl
@[simp] theorem assembleParts_setRotation (v : AsmOperand) :
    assembleParts "SET_ROTATION" [v] = (do return .setRotation (← v.rotation)) := rfl
@[simp] theorem assembleParts_setDisplayMode (m : AsmOperand) :
    assembleParts "SET_DISPLAY_MODE" [m] = (do return .setDisplayMode (← m.modeValue)) := rfl
@[simp] theorem assembleParts_selectDisplayMode (m : AsmOperand) :
    assembleParts "SELECT_DISPLAY_MODE" [m] = (do return .selectDisplayMode (← m.modeValue)) := rfl

end Sys2Proof.Machine
end

