-- ==== Sys2Proof/Laws/Fields.lean ====
section
/-! SUPPORT. The bit fields of a command word: what each field of an assembled word holds, what a reserved mask covers,
and what a word is made of. -/

namespace Sys2Proof

/-! ### An assembled word, field by field -/

theorem append_toNat {n m : Nat} (x : BitVec n) (y : BitVec m) : (x ++ y).toNat = x.toNat * 2 ^ m + y.toNat := by
  rw [BitVec.toNat_append, ← Nat.shiftLeft_add_eq_or_of_lt y.isLt, Nat.shiftLeft_eq]

theorem assembleWord_toNat (o : Opcode) (c : Colour) (f3 f2 f1 f0 : BitVec 16) :
    (assembleWord o c f3 f2 f1 f0).toNat = o.code.toNat * 2 ^ 120 + c.toNat * 2 ^ 64 + f3.toNat * 2 ^ 48 +
      f2.toNat * 2 ^ 32 + f1.toNat * 2 ^ 16 + f0.toNat := by
  have h : (assembleWord o c f3 f2 f1 f0).toNat = (o.code ++ 0#40 ++ c ++ f3 ++ f2 ++ f1 ++ f0).toNat := rfl
  simp only [h, append_toNat, BitVec.toNat_ofNat]
  omega

section
variable (o : Opcode) (c : Colour) (f3 f2 f1 f0 : BitVec 16)

@[simp] theorem fieldOpc_assembleWord : fieldOpc (assembleWord o c f3 f2 f1 f0) = o.code := by
  have := o.code.isLt; have := c.isLt; have := f3.isLt; have := f2.isLt; have := f1.isLt; have := f0.isLt
  apply BitVec.eq_of_toNat_eq
  simp only [fieldOpc, BitVec.extractLsb'_toNat, assembleWord_toNat, Nat.shiftRight_eq_div_pow]
  omega

@[simp] theorem fieldRsv_assembleWord : fieldRsv (assembleWord o c f3 f2 f1 f0) = 0#40 := by
  have := c.isLt; have := f3.isLt; have := f2.isLt; have := f1.isLt; have := f0.isLt
  apply BitVec.eq_of_toNat_eq
  simp only [fieldRsv, BitVec.extractLsb'_toNat, assembleWord_toNat, Nat.shiftRight_eq_div_pow, BitVec.toNat_ofNat]
  omega

@[simp] theorem fieldColor_assembleWord : fieldColor (assembleWord o c f3 f2 f1 f0) = c := by
  have := c.isLt; have := f3.isLt; have := f2.isLt; have := f1.isLt; have := f0.isLt
  apply BitVec.eq_of_toNat_eq
  simp only [fieldColor, BitVec.extractLsb'_toNat, assembleWord_toNat, Nat.shiftRight_eq_div_pow]
  omega

@[simp] theorem fieldF3_assembleWord : fieldF3 (assembleWord o c f3 f2 f1 f0) = f3 := by
  have := f3.isLt; have := f2.isLt; have := f1.isLt; have := f0.isLt
  apply BitVec.eq_of_toNat_eq
  simp only [fieldF3, BitVec.extractLsb'_toNat, assembleWord_toNat, Nat.shiftRight_eq_div_pow]
  omega

@[simp] theorem fieldF2_assembleWord : fieldF2 (assembleWord o c f3 f2 f1 f0) = f2 := by
  have := f2.isLt; have := f1.isLt; have := f0.isLt
  apply BitVec.eq_of_toNat_eq
  simp only [fieldF2, BitVec.extractLsb'_toNat, assembleWord_toNat, Nat.shiftRight_eq_div_pow]
  omega

@[simp] theorem fieldF1_assembleWord : fieldF1 (assembleWord o c f3 f2 f1 f0) = f1 := by
  have := f1.isLt; have := f0.isLt
  apply BitVec.eq_of_toNat_eq
  simp only [fieldF1, BitVec.extractLsb'_toNat, assembleWord_toNat, Nat.shiftRight_eq_div_pow]
  omega

@[simp] theorem fieldF0_assembleWord : fieldF0 (assembleWord o c f3 f2 f1 f0) = f0 := by
  have := f0.isLt
  apply BitVec.eq_of_toNat_eq
  simp only [fieldF0, BitVec.extractLsb'_toNat, assembleWord_toNat, Nat.shiftRight_eq_div_pow]
  omega

theorem fieldVal_assembleWord : (fieldVal (assembleWord o c f3 f2 f1 f0)).toNat = f1.toNat * 2 ^ 16 + f0.toNat := by
  have := f1.isLt; have := f0.isLt
  simp only [fieldVal, BitVec.extractLsb'_toNat, assembleWord_toNat, Nat.shiftRight_eq_div_pow]
  omega

end

/-- VAL occupies the same bits as {F1, F0} (R42): its two halves put there read back as the value. -/
@[simp] theorem fieldVal_assembleWord_halves (o : Opcode) (c : Colour) (f3 f2 : BitVec 16) (v : Value) :
    fieldVal (assembleWord o c f3 f2 (valHigh v) (valLow v)) = v := by
  have := v.isLt
  apply BitVec.eq_of_toNat_eq
  rw [fieldVal_assembleWord]
  simp only [valHigh, valLow, BitVec.extractLsb'_toNat, Nat.shiftRight_eq_div_pow]
  omega

/-- A coordinate that fits reads back as itself (R43, R51). -/
theorem sext16_coordField {v : Int} (h : coordFits v = true) : sext16 (coordField v) = v := by
  simp only [coordFits, Bool.and_eq_true, decide_eq_true_eq] at h
  simp only [sext16, coordField, BitVec.toInt_ofInt]
  rw [Int.bmod_eq_of_le] <;> omega

/-- What `sext_16` yields fits (R9). -/
theorem coordFits_sext16 (b : BitVec 16) : coordFits (sext16 b) = true := by
  have h1 := BitVec.two_mul_toInt_lt (x := b)
  have h2 := BitVec.le_two_mul_toInt (x := b)
  unfold coordFits sext16
  rw [Bool.and_eq_true, decide_eq_true_eq, decide_eq_true_eq]
  omega

@[simp] theorem coordField_sext16 (b : BitVec 16) : coordField (sext16 b) = b := BitVec.ofInt_toInt

/-! ### A word is its fields -/

theorem word_toNat (cw : CommandWord) :
    cw.toNat = (fieldOpc cw).toNat * 2 ^ 120 + (fieldRsv cw).toNat * 2 ^ 80 + (fieldColor cw).toNat * 2 ^ 64 +
      (fieldF3 cw).toNat * 2 ^ 48 + (fieldF2 cw).toNat * 2 ^ 32 + (fieldF1 cw).toNat * 2 ^ 16 +
      (fieldF0 cw).toNat := by
  have := cw.isLt
  simp only [fieldOpc, fieldRsv, fieldColor, fieldF3, fieldF2, fieldF1, fieldF0, BitVec.extractLsb'_toNat,
    Nat.shiftRight_eq_div_pow]
  omega

/-- Words with equal fields are equal (R42: the fields cover the word). -/
theorem word_ext {a b : CommandWord} (hopc : fieldOpc a = fieldOpc b) (hrsv : fieldRsv a = fieldRsv b)
    (hcolor : fieldColor a = fieldColor b) (hf3 : fieldF3 a = fieldF3 b) (hf2 : fieldF2 a = fieldF2 b)
    (hf1 : fieldF1 a = fieldF1 b) (hf0 : fieldF0 a = fieldF0 b) : a = b := by
  apply BitVec.eq_of_toNat_eq
  rw [word_toNat a, word_toNat b, hopc, hrsv, hcolor, hf3, hf2, hf1, hf0]

/-- A word with zeros below its opcode has zeros in every other field. -/
theorem fields_of_plain {cw : CommandWord} (h : cw.extractLsb' 0 120 = 0#120) :
    fieldRsv cw = 0#40 ∧ fieldColor cw = 0#16 ∧ fieldF3 cw = 0#16 ∧ fieldF2 cw = 0#16 ∧ fieldF1 cw = 0#16 ∧
      fieldF0 cw = 0#16 := by
  have h' := congrArg BitVec.toNat h
  simp only [BitVec.extractLsb'_toNat, Nat.shiftRight_eq_div_pow, BitVec.toNat_ofNat] at h'
  refine ⟨?_, ?_, ?_, ?_, ?_, ?_⟩ <;>
  · apply BitVec.eq_of_toNat_eq
    simp only [fieldRsv, fieldColor, fieldF3, fieldF2, fieldF1, fieldF0, BitVec.extractLsb'_toNat,
      Nat.shiftRight_eq_div_pow, BitVec.toNat_ofNat]
    omega

@[simp] theorem valHigh_fieldVal (cw : CommandWord) : valHigh (fieldVal cw) = fieldF1 cw := by
  apply BitVec.eq_of_toNat_eq
  simp only [valHigh, fieldVal, fieldF1, BitVec.extractLsb'_toNat, Nat.shiftRight_eq_div_pow]
  omega

@[simp] theorem valLow_fieldVal (cw : CommandWord) : valLow (fieldVal cw) = fieldF0 cw := by
  apply BitVec.eq_of_toNat_eq
  simp only [valLow, fieldVal, fieldF0, BitVec.extractLsb'_toNat, Nat.shiftRight_eq_div_pow]
  omega

/-! ### The reserved masks -/

/-- A run of ones: bits [s + n - 1 : s]. -/
def onesAt (s n : Nat) : CommandWord := (BitVec.allOnes n).setWidth 128 <<< s

theorem and_onesAt {s n : Nat} (h : s + n ≤ 128) (x : CommandWord) :
    x &&& onesAt s n = 0#128 ↔ x.extractLsb' s n = 0#n := by
  constructor
  · intro hx
    apply BitVec.eq_of_getLsbD_eq
    intro i hi
    have := congrArg (fun b => b.getLsbD (s + i)) hx
    simp only [onesAt, BitVec.getLsbD_and, BitVec.getLsbD_shiftLeft, BitVec.getLsbD_setWidth, BitVec.getLsbD_allOnes,
      BitVec.getLsbD_zero] at this
    simp only [BitVec.getLsbD_extractLsb', BitVec.getLsbD_zero]
    have h1 : s + i < 128 := by omega
    have h2 : i < 128 := by omega
    simpa [h1, h2, hi] using this
  · intro hx
    apply BitVec.eq_of_getLsbD_eq
    intro i hi
    simp only [onesAt, BitVec.getLsbD_and, BitVec.getLsbD_shiftLeft, BitVec.getLsbD_setWidth, BitVec.getLsbD_allOnes,
      BitVec.getLsbD_zero]
    by_cases his : s ≤ i ∧ i - s < n
    · have := congrArg (fun b => b.getLsbD (i - s)) hx
      simp only [BitVec.getLsbD_extractLsb', BitVec.getLsbD_zero] at this
      have e : s + (i - s) = i := by omega
      simp_all
    · by_cases h1 : i < s
      · simp [h1]
      · have h2 : ¬ i - s < n := by omega
        simp [h2]

theorem and_or_eq_zero (x a b : CommandWord) : x &&& (a ||| b) = 0#128 ↔ x &&& a = 0#128 ∧ x &&& b = 0#128 := by
  rw [BitVec.and_or_distrib_left, BitVec.or_eq_zero_iff]

theorem rmask_pixel : Opcode.rmask .writePixel = onesAt 80 40 ||| (onesAt 48 16 ||| onesAt 32 16) := by decide
theorem rmask_run : Opcode.rmask .writeFastHLine = onesAt 80 40 ||| onesAt 48 16 := by decide
theorem rmask_rect : Opcode.rmask .writeFillRect = onesAt 80 40 := by decide
theorem rmask_value :
    Opcode.rmask .setRotation = onesAt 80 40 ||| (onesAt 64 16 ||| (onesAt 48 16 ||| onesAt 32 16)) := by decide
theorem rmask_plain : Opcode.rmask .showBuffer = onesAt 0 120 := by decide

/-- The mask of the opcode table clears exactly the fields that R46 marks `0`. -/
theorem and_rmask_eq_zero (cw : CommandWord) (o : Opcode) : cw &&& o.rmask = 0#128 ↔ reservedFieldsZero cw o := by
  have pixel : cw &&& Opcode.rmask .writePixel = 0#128 ↔ reservedFieldsZero cw .writePixel := by
    rw [rmask_pixel, and_or_eq_zero, and_or_eq_zero, and_onesAt (by decide), and_onesAt (by decide),
      and_onesAt (by decide)]
    exact Iff.rfl
  have run : cw &&& Opcode.rmask .writeFastHLine = 0#128 ↔ reservedFieldsZero cw .writeFastHLine := by
    rw [rmask_run, and_or_eq_zero, and_onesAt (by decide), and_onesAt (by decide)]
    exact Iff.rfl
  have rect : cw &&& Opcode.rmask .writeFillRect = 0#128 ↔ reservedFieldsZero cw .writeFillRect := by
    rw [rmask_rect, and_onesAt (by decide)]
    exact Iff.rfl
  have value : cw &&& Opcode.rmask .setRotation = 0#128 ↔ reservedFieldsZero cw .setRotation := by
    rw [rmask_value, and_or_eq_zero, and_or_eq_zero, and_or_eq_zero, and_onesAt (by decide), and_onesAt (by decide),
      and_onesAt (by decide), and_onesAt (by decide)]
    exact Iff.rfl
  have plain : cw &&& Opcode.rmask .showBuffer = 0#128 ↔ reservedFieldsZero cw .showBuffer := by
    rw [rmask_plain, and_onesAt (by decide)]
    exact Iff.rfl
  cases o
  · exact pixel
  · exact pixel
  · exact run
  · exact run
  · exact rect
  · exact rect
  · exact plain
  · exact plain
  · exact value
  · exact plain
  · exact value
  · exact value
  · exact plain
  · exact plain
  · exact plain
  · exact plain

/-! ### The opcode map -/

/-- Each opcode's number finds its own row (R46). -/
@[simp] theorem opcodeOf_code (o : Opcode) : opcodeOf o.code = some o := by
  cases o <;> decide

/-- A row is found for its own number only. -/
theorem code_of_opcodeOf {opc : BitVec 8} {o : Opcode} (h : opcodeOf opc = some o) : o.code = opc := by
  simpa using List.find?_some h

/-- What the decoder answers, case by case (R49). -/
theorem decode_cases (cw : CommandWord) :
    (opcodeOf (fieldOpc cw) = none ∧ decode cw = .illegalOpcode (fieldOpc cw)) ∨
    (∃ o : Opcode, o.code = fieldOpc cw ∧ ¬ reservedFieldsZero cw o ∧ decode cw = .reservedNonzero) ∨
    (∃ o : Opcode, o.code = fieldOpc cw ∧ reservedFieldsZero cw o ∧ decode cw = .instr (o.operands cw)) := by
  unfold decode
  split
  · rename_i h
    exact .inl ⟨h, rfl⟩
  · rename_i o h
    have hc := code_of_opcodeOf h
    by_cases hr : cw &&& o.rmask = 0#128
    · rw [if_pos hr]
      exact .inr (.inr ⟨o, hc, (and_rmask_eq_zero cw o).mp hr, rfl⟩)
    · rw [if_neg hr]
      exact .inr (.inl ⟨o, hc, fun h' => hr ((and_rmask_eq_zero cw o).mpr h'), rfl⟩)

/-- A word with an assigned opcode and zero reserved fields decodes to its row's operands (R49). -/
theorem decode_of_reservedFieldsZero {cw : CommandWord} {o : Opcode} (hc : fieldOpc cw = o.code)
    (hr : reservedFieldsZero cw o) : decode cw = .instr (o.operands cw) := by
  unfold decode
  rw [hc, opcodeOf_code]
  exact if_pos ((and_rmask_eq_zero cw o).mpr hr)

end Sys2Proof
end

