-- ==== Sys2Proof/Laws/Memory.lean ====
section
/-! SUPPORT. The laws of a buffer: what a read sees of a write, that every operation keeps the canonical form, and that
canonical buffers with equal bytes are equal data. -/

namespace Sys2Proof.Machine

@[simp] theorem Memory.read_nil (i : Nat) : Memory.read [] i = unlistedByte := rfl

@[simp] theorem Memory.read_cons (a : Nat) (b : Byte) (m : Memory) (i : Nat) :
    Memory.read ((a, b) :: m) i = if a = i then b else Memory.read m i := rfl

/-! ### The canonical form -/

theorem Memory.canonicalFrom_cons {size lo a : Nat} {b : Byte} {m : Memory} :
    Memory.canonicalFrom size lo ((a, b) :: m) = true ↔
      lo ≤ a ∧ a < size ∧ b ≠ unlistedByte ∧ Memory.canonicalFrom size (a + 1) m = true := by
  simp [Memory.canonicalFrom, and_assoc]

theorem Memory.canonicalFrom_mono {size lo lo' : Nat} {m : Memory} (h : lo' ≤ lo)
    (hm : Memory.canonicalFrom size lo m = true) : Memory.canonicalFrom size lo' m = true := by
  cases m with
  | nil => rfl
  | cons c m =>
    obtain ⟨a, b⟩ := c
    rw [Memory.canonicalFrom_cons] at hm ⊢
    exact ⟨h.trans hm.1, hm.2⟩

/-- An index below every cell reads as an unlisted index. -/
theorem Memory.read_of_lt {size lo i : Nat} {m : Memory} (hm : Memory.canonicalFrom size lo m = true) (h : i < lo) :
    Memory.read m i = unlistedByte := by
  induction m generalizing lo with
  | nil => rfl
  | cons c m ih =>
    obtain ⟨a, b⟩ := c
    obtain ⟨ha, -, -, hm⟩ := Memory.canonicalFrom_cons.mp hm
    rw [Memory.read_cons, if_neg (by omega)]
    exact ih hm (by omega)

/-- An index outside the buffer has no cell. -/
theorem Memory.read_of_ge {size lo i : Nat} {m : Memory} (hm : Memory.canonicalFrom size lo m = true)
    (h : size ≤ i) : Memory.read m i = unlistedByte := by
  induction m generalizing lo with
  | nil => rfl
  | cons c m ih =>
    obtain ⟨a, b⟩ := c
    obtain ⟨-, ha, -, hm⟩ := Memory.canonicalFrom_cons.mp hm
    rw [Memory.read_cons, if_neg (by omega)]
    exact ih hm

/-! ### A write -/

theorem Memory.read_cellBefore (i : Nat) (v : Byte) (m : Memory) (j : Nat) (h : i = j → Memory.read m j = unlistedByte) :
    Memory.read (Memory.cellBefore i v m) j = if i = j then v else Memory.read m j := by
  unfold Memory.cellBefore
  split
  · rename_i hv
    split
    · rename_i hij
      rw [h hij, hv]
    · rfl
  · rfl

/-- A read after a write: the byte written at its own index, and what was there at every other. -/
theorem Memory.read_write {size lo : Nat} {m : Memory} (hm : Memory.canonicalFrom size lo m = true) (i j : Nat)
    (v : Byte) : Memory.read (Memory.write m i v) j = if i = j then v else Memory.read m j := by
  induction m generalizing lo with
  | nil => exact Memory.read_cellBefore i v [] j fun _ => rfl
  | cons c m ih =>
    obtain ⟨a, b⟩ := c
    have hcons := hm
    obtain ⟨-, -, -, hm⟩ := Memory.canonicalFrom_cons.mp hm
    simp only [Memory.write]
    split
    · rename_i hlt
      refine Memory.read_cellBefore i v _ j fun hij => ?_
      rw [Memory.read_cons, if_neg (by omega)]
      exact Memory.read_of_lt hm (by omega)
    · split
      · rename_i hia
        rw [Memory.read_cellBefore i v m j fun hij => Memory.read_of_lt hm (by omega), Memory.read_cons, ← hia]
        split <;> rfl
      · rename_i hne
        rw [Memory.read_cons, Memory.read_cons, ih hm]
        split
        · rw [if_neg (by omega)]
        · rfl

theorem Memory.cellBefore_canonical {size lo i : Nat} {v : Byte} {m : Memory} (hlo : lo ≤ i) (hi : i < size)
    (hm : Memory.canonicalFrom size (i + 1) m = true) :
    Memory.canonicalFrom size lo (Memory.cellBefore i v m) = true := by
  unfold Memory.cellBefore
  split
  · exact Memory.canonicalFrom_mono (by omega) hm
  · exact Memory.canonicalFrom_cons.mpr ⟨hlo, hi, by assumption, hm⟩

theorem Memory.write_canonical {size lo i : Nat} {m : Memory} (hm : Memory.canonicalFrom size lo m = true)
    (hlo : lo ≤ i) (hi : i < size) (v : Byte) : Memory.canonicalFrom size lo (Memory.write m i v) = true := by
  induction m generalizing lo with
  | nil => exact Memory.cellBefore_canonical hlo hi rfl
  | cons c m ih =>
    obtain ⟨a, b⟩ := c
    obtain ⟨ha, hsz, hb, hm⟩ := Memory.canonicalFrom_cons.mp hm
    simp only [Memory.write]
    split
    · exact Memory.cellBefore_canonical hlo hi (Memory.canonicalFrom_cons.mpr ⟨by omega, hsz, hb, hm⟩)
    · split
      · rename_i hia
        exact Memory.cellBefore_canonical hlo hi (hia ▸ hm)
      · exact Memory.canonicalFrom_cons.mpr ⟨ha, hsz, hb, ih hm (by omega)⟩

/-- A write inside the buffer keeps the canonical form. -/
theorem Memory.write_wf {size i : Nat} {m : Memory} (hm : m.wf size = true) (hi : i < size) (v : Byte) :
    (m.write i v).wf size = true :=
  Memory.write_canonical hm (Nat.zero_le i) hi v

theorem Memory.read_write_same {size i : Nat} {m : Memory} (hm : m.wf size = true) (v : Byte) :
    (m.write i v).read i = v := by
  rw [Memory.read_write hm, if_pos rfl]

theorem Memory.read_write_of_ne {size i j : Nat} {m : Memory} (hm : m.wf size = true) (h : i ≠ j) (v : Byte) :
    (m.write i v).read j = m.read j := by
  rw [Memory.read_write hm, if_neg h]

/-! ### A fill -/

theorem Memory.canonicalFrom_indices {size : Nat} {v : Byte} (hv : v ≠ unlistedByte) (n lo : Nat) (h : lo + n ≤ size) :
    Memory.canonicalFrom size lo ((List.range' lo n).map fun i => (i, v)) = true := by
  induction n generalizing lo with
  | zero => rfl
  | succ n ih =>
    rw [List.range'_succ, List.map_cons]
    exact Memory.canonicalFrom_cons.mpr ⟨le_rfl, by omega, hv, ih (lo + 1) (by omega)⟩

theorem Memory.filled_wf (size : Nat) (v : Byte) : (Memory.filled size v).wf size = true := by
  unfold Memory.filled
  split
  · rfl
  · rename_i hv
    rw [List.range_eq_range']
    exact Memory.canonicalFrom_indices hv size 0 (by omega)

theorem Memory.read_indices (v : Byte) (n lo i : Nat) :
    Memory.read ((List.range' lo n).map fun i => (i, v)) i = if lo ≤ i ∧ i < lo + n then v else unlistedByte := by
  induction n generalizing lo with
  | zero => simp
  | succ n ih =>
    rw [List.range'_succ, List.map_cons, Memory.read_cons, ih]
    split_ifs <;> first | rfl | omega

/-- Every byte of a filled buffer holds the fill (R33). -/
theorem Memory.read_filled {size i : Nat} (v : Byte) (hi : i < size) : (Memory.filled size v).read i = v := by
  unfold Memory.filled
  split
  · rename_i hv
    exact hv.symm
  · rw [List.range_eq_range', Memory.read_indices, if_pos (by omega)]

/-! ### Equal bytes, equal data -/

theorem Memory.canonical_ext {size lo lo' : Nat} {m m' : Memory} (hm : Memory.canonicalFrom size lo m = true)
    (hm' : Memory.canonicalFrom size lo' m' = true) (h : ∀ i, Memory.read m i = Memory.read m' i) : m = m' := by
  induction m generalizing lo lo' m' with
  | nil =>
    cases m' with
    | nil => rfl
    | cons c m' =>
      obtain ⟨a, b⟩ := c
      obtain ⟨-, -, hb, -⟩ := Memory.canonicalFrom_cons.mp hm'
      exact absurd (h a) (by simpa using hb.symm)
  | cons c m ih =>
    obtain ⟨a, b⟩ := c
    obtain ⟨-, -, hb, hm⟩ := Memory.canonicalFrom_cons.mp hm
    cases m' with
    | nil => exact absurd (h a) (by simpa using hb)
    | cons c' m' =>
      obtain ⟨a', b'⟩ := c'
      obtain ⟨-, -, hb', ht'⟩ := Memory.canonicalFrom_cons.mp hm'
      have haa : a = a' := by
        rcases Nat.lt_trichotomy a a' with hlt | heq | hgt
        · have := h a
          rw [Memory.read_cons, if_pos rfl, Memory.read_cons, if_neg (by omega), Memory.read_of_lt ht' (by omega)] at this
          exact absurd this hb
        · exact heq
        · have := h a'
          rw [Memory.read_cons, if_neg (by omega), Memory.read_cons, if_pos rfl, Memory.read_of_lt hm (by omega)] at this
          exact absurd this.symm hb'
      subst haa
      have hbb : b = b' := by simpa using h a
      subst hbb
      refine congrArg _ (ih hm ht' fun i => ?_)
      by_cases hi : a = i
      · rw [← hi, Memory.read_of_lt hm (by omega), Memory.read_of_lt ht' (by omega)]
      · simpa [hi] using h i

/-- Canonical buffers with the same bytes are equal data. -/
theorem Memory.ext_of_read {size : Nat} {m m' : Memory} (hm : m.wf size = true) (hm' : m'.wf size = true)
    (h : ∀ i < size, m.read i = m'.read i) : m = m' := by
  refine Memory.canonical_ext hm hm' fun i => ?_
  by_cases hi : i < size
  · exact h i hi
  · rw [Memory.read_of_ge hm (by omega), Memory.read_of_ge hm' (by omega)]

/-- The buffers of every reset are in the canonical form, `State.reset`'s among them. -/
theorem resetBuffer_wf (size : Nat) : (resetBuffer size).wf size = true := Memory.filled_wf size _

end Sys2Proof.Machine
end

