-- ==== Sys2Proof/Laws/State.lean ====
section
/-! SUPPORT. What each update of the state leaves in each field, so that no later proof unfolds a record update. -/

namespace Sys2Proof.Machine

/-! ### respond -/

@[simp] theorem State.respond_cfg (s : State) (st : Status) (d : Value) : (s.respond st d).cfg = s.cfg := rfl
@[simp] theorem State.respond_rot (s : State) (st : Status) (d : Value) : (s.respond st d).rot = s.rot := rfl
@[simp] theorem State.respond_lw (s : State) (st : Status) (d : Value) : (s.respond st d).lw = s.lw := rfl
@[simp] theorem State.respond_lh (s : State) (st : Status) (d : Value) : (s.respond st d).lh = s.lh := rfl
@[simp] theorem State.respond_mode (s : State) (st : Status) (d : Value) : (s.respond st d).mode = s.mode := rfl
@[simp] theorem State.respond_init (s : State) (st : Status) (d : Value) : (s.respond st d).init = s.init := rfl
@[simp] theorem State.respond_mb (s : State) (st : Status) (d : Value) : (s.respond st d).mb = s.mb := rfl
@[simp] theorem State.respond_gb (s : State) (st : Status) (d : Value) : (s.respond st d).gb = s.gb := rfl
@[simp] theorem State.respond_busy (s : State) (st : Status) (d : Value) : (s.respond st d).busy = false := rfl
@[simp] theorem State.respond_port (s : State) (st : Status) (d : Value) : (s.respond st d).port = s.port := rfl
@[simp] theorem State.respond_responses (s : State) (st : Status) (d : Value) : (s.respond st d).responses = s.responses ++ [⟨st, d⟩] := rfl
@[simp] theorem State.respond_commits (s : State) (st : Status) (d : Value) : (s.respond st d).commits = s.commits := rfl
@[simp] theorem State.respond_pdServes (s : State) (st : Status) (d : Value) : (s.respond st d).pdServes = s.pdServes := rfl

/-! ### withRotation -/

@[simp] theorem State.withRotation_cfg (s : State) (r : BitVec 2) : (s.withRotation r).cfg = s.cfg := rfl
@[simp] theorem State.withRotation_rot (s : State) (r : BitVec 2) : (s.withRotation r).rot = r := rfl
@[simp] theorem State.withRotation_lw (s : State) (r : BitVec 2) : (s.withRotation r).lw = s.cfg.logicalWidth r := rfl
@[simp] theorem State.withRotation_lh (s : State) (r : BitVec 2) : (s.withRotation r).lh = s.cfg.logicalHeight r := rfl
@[simp] theorem State.withRotation_mode (s : State) (r : BitVec 2) : (s.withRotation r).mode = s.mode := rfl
@[simp] theorem State.withRotation_init (s : State) (r : BitVec 2) : (s.withRotation r).init = s.init := rfl
@[simp] theorem State.withRotation_mb (s : State) (r : BitVec 2) : (s.withRotation r).mb = s.mb := rfl
@[simp] theorem State.withRotation_gb (s : State) (r : BitVec 2) : (s.withRotation r).gb = s.gb := rfl
@[simp] theorem State.withRotation_busy (s : State) (r : BitVec 2) : (s.withRotation r).busy = s.busy := rfl
@[simp] theorem State.withRotation_port (s : State) (r : BitVec 2) : (s.withRotation r).port = s.port := rfl
@[simp] theorem State.withRotation_responses (s : State) (r : BitVec 2) : (s.withRotation r).responses = s.responses := rfl
@[simp] theorem State.withRotation_commits (s : State) (r : BitVec 2) : (s.withRotation r).commits = s.commits := rfl
@[simp] theorem State.withRotation_pdServes (s : State) (r : BitVec 2) : (s.withRotation r).pdServes = s.pdServes := rfl

/-! ### withMode -/

@[simp] theorem State.withMode_cfg (s : State) (m : BitVec 32) : (s.withMode m).cfg = s.cfg := rfl
@[simp] theorem State.withMode_rot (s : State) (m : BitVec 32) : (s.withMode m).rot = s.rot := rfl
@[simp] theorem State.withMode_lw (s : State) (m : BitVec 32) : (s.withMode m).lw = s.lw := rfl
@[simp] theorem State.withMode_lh (s : State) (m : BitVec 32) : (s.withMode m).lh = s.lh := rfl
@[simp] theorem State.withMode_mode (s : State) (m : BitVec 32) : (s.withMode m).mode = m := rfl
@[simp] theorem State.withMode_init (s : State) (m : BitVec 32) : (s.withMode m).init = s.init := rfl
@[simp] theorem State.withMode_mb (s : State) (m : BitVec 32) : (s.withMode m).mb = s.mb := rfl
@[simp] theorem State.withMode_gb (s : State) (m : BitVec 32) : (s.withMode m).gb = s.gb := rfl
@[simp] theorem State.withMode_busy (s : State) (m : BitVec 32) : (s.withMode m).busy = s.busy := rfl
@[simp] theorem State.withMode_port (s : State) (m : BitVec 32) : (s.withMode m).port = s.port := rfl
@[simp] theorem State.withMode_responses (s : State) (m : BitVec 32) : (s.withMode m).responses = s.responses := rfl
@[simp] theorem State.withMode_commits (s : State) (m : BitVec 32) : (s.withMode m).commits = s.commits := rfl
@[simp] theorem State.withMode_pdServes (s : State) (m : BitVec 32) : (s.withMode m).pdServes = s.pdServes := rfl

/-! ### present -/

@[simp] theorem State.present_cfg (s : State) (cw : CommandWord) : (s.present cw).cfg = s.cfg := rfl
@[simp] theorem State.present_rot (s : State) (cw : CommandWord) : (s.present cw).rot = s.rot := rfl
@[simp] theorem State.present_lw (s : State) (cw : CommandWord) : (s.present cw).lw = s.lw := rfl
@[simp] theorem State.present_lh (s : State) (cw : CommandWord) : (s.present cw).lh = s.lh := rfl
@[simp] theorem State.present_mode (s : State) (cw : CommandWord) : (s.present cw).mode = s.mode := rfl
@[simp] theorem State.present_init (s : State) (cw : CommandWord) : (s.present cw).init = s.init := rfl
@[simp] theorem State.present_mb (s : State) (cw : CommandWord) : (s.present cw).mb = s.mb := rfl
@[simp] theorem State.present_gb (s : State) (cw : CommandWord) : (s.present cw).gb = s.gb := rfl
@[simp] theorem State.present_busy (s : State) (cw : CommandWord) : (s.present cw).busy = s.busy := rfl
@[simp] theorem State.present_port (s : State) (cw : CommandWord) : (s.present cw).port = s.port ++ [cw] := rfl
@[simp] theorem State.present_responses (s : State) (cw : CommandWord) : (s.present cw).responses = s.responses := rfl
@[simp] theorem State.present_commits (s : State) (cw : CommandWord) : (s.present cw).commits = s.commits := rfl
@[simp] theorem State.present_pdServes (s : State) (cw : CommandWord) : (s.present cw).pdServes = s.pdServes := rfl

/-! ### withBuffer, the Monochrome buffer -/

@[simp] theorem State.withBuffer_mono_cfg (s : State) (m : Memory) : (s.withBuffer m .mono).cfg = s.cfg := rfl
@[simp] theorem State.withBuffer_mono_rot (s : State) (m : Memory) : (s.withBuffer m .mono).rot = s.rot := rfl
@[simp] theorem State.withBuffer_mono_lw (s : State) (m : Memory) : (s.withBuffer m .mono).lw = s.lw := rfl
@[simp] theorem State.withBuffer_mono_lh (s : State) (m : Memory) : (s.withBuffer m .mono).lh = s.lh := rfl
@[simp] theorem State.withBuffer_mono_mode (s : State) (m : Memory) : (s.withBuffer m .mono).mode = s.mode := rfl
@[simp] theorem State.withBuffer_mono_init (s : State) (m : Memory) : (s.withBuffer m .mono).init = s.init := rfl
@[simp] theorem State.withBuffer_mono_mb (s : State) (m : Memory) : (s.withBuffer m .mono).mb = m := rfl
@[simp] theorem State.withBuffer_mono_gb (s : State) (m : Memory) : (s.withBuffer m .mono).gb = s.gb := rfl
@[simp] theorem State.withBuffer_mono_busy (s : State) (m : Memory) : (s.withBuffer m .mono).busy = s.busy := rfl
@[simp] theorem State.withBuffer_mono_port (s : State) (m : Memory) : (s.withBuffer m .mono).port = s.port := rfl
@[simp] theorem State.withBuffer_mono_responses (s : State) (m : Memory) : (s.withBuffer m .mono).responses = s.responses := rfl
@[simp] theorem State.withBuffer_mono_commits (s : State) (m : Memory) : (s.withBuffer m .mono).commits = s.commits := rfl
@[simp] theorem State.withBuffer_mono_pdServes (s : State) (m : Memory) : (s.withBuffer m .mono).pdServes = s.pdServes := rfl

/-! ### withBuffer, the Grayscale buffer -/

@[simp] theorem State.withBuffer_gray_cfg (s : State) (m : Memory) : (s.withBuffer m .gray).cfg = s.cfg := rfl
@[simp] theorem State.withBuffer_gray_rot (s : State) (m : Memory) : (s.withBuffer m .gray).rot = s.rot := rfl
@[simp] theorem State.withBuffer_gray_lw (s : State) (m : Memory) : (s.withBuffer m .gray).lw = s.lw := rfl
@[simp] theorem State.withBuffer_gray_lh (s : State) (m : Memory) : (s.withBuffer m .gray).lh = s.lh := rfl
@[simp] theorem State.withBuffer_gray_mode (s : State) (m : Memory) : (s.withBuffer m .gray).mode = s.mode := rfl
@[simp] theorem State.withBuffer_gray_init (s : State) (m : Memory) : (s.withBuffer m .gray).init = s.init := rfl
@[simp] theorem State.withBuffer_gray_mb (s : State) (m : Memory) : (s.withBuffer m .gray).mb = s.mb := rfl
@[simp] theorem State.withBuffer_gray_gb (s : State) (m : Memory) : (s.withBuffer m .gray).gb = m := rfl
@[simp] theorem State.withBuffer_gray_busy (s : State) (m : Memory) : (s.withBuffer m .gray).busy = s.busy := rfl
@[simp] theorem State.withBuffer_gray_port (s : State) (m : Memory) : (s.withBuffer m .gray).port = s.port := rfl
@[simp] theorem State.withBuffer_gray_responses (s : State) (m : Memory) : (s.withBuffer m .gray).responses = s.responses := rfl
@[simp] theorem State.withBuffer_gray_commits (s : State) (m : Memory) : (s.withBuffer m .gray).commits = s.commits := rfl
@[simp] theorem State.withBuffer_gray_pdServes (s : State) (m : Memory) : (s.withBuffer m .gray).pdServes = s.pdServes := rfl

/-! ### withBuffer and memWrite, either buffer -/

@[simp] theorem State.withBuffer_cfg (s : State) (m : Memory) (sel : BufferSel) : (s.withBuffer m sel).cfg = s.cfg := by
  cases sel <;> rfl
@[simp] theorem State.memWrite_cfg (s : State) (sel : BufferSel) (i : Nat) (v : Byte) : (s.memWrite sel i v).cfg = s.cfg := by
  cases sel <;> rfl
@[simp] theorem State.withBuffer_rot (s : State) (m : Memory) (sel : BufferSel) : (s.withBuffer m sel).rot = s.rot := by
  cases sel <;> rfl
@[simp] theorem State.memWrite_rot (s : State) (sel : BufferSel) (i : Nat) (v : Byte) : (s.memWrite sel i v).rot = s.rot := by
  cases sel <;> rfl
@[simp] theorem State.withBuffer_lw (s : State) (m : Memory) (sel : BufferSel) : (s.withBuffer m sel).lw = s.lw := by
  cases sel <;> rfl
@[simp] theorem State.memWrite_lw (s : State) (sel : BufferSel) (i : Nat) (v : Byte) : (s.memWrite sel i v).lw = s.lw := by
  cases sel <;> rfl
@[simp] theorem State.withBuffer_lh (s : State) (m : Memory) (sel : BufferSel) : (s.withBuffer m sel).lh = s.lh := by
  cases sel <;> rfl
@[simp] theorem State.memWrite_lh (s : State) (sel : BufferSel) (i : Nat) (v : Byte) : (s.memWrite sel i v).lh = s.lh := by
  cases sel <;> rfl
@[simp] theorem State.withBuffer_mode (s : State) (m : Memory) (sel : BufferSel) : (s.withBuffer m sel).mode = s.mode := by
  cases sel <;> rfl
@[simp] theorem State.memWrite_mode (s : State) (sel : BufferSel) (i : Nat) (v : Byte) : (s.memWrite sel i v).mode = s.mode := by
  cases sel <;> rfl
@[simp] theorem State.withBuffer_init (s : State) (m : Memory) (sel : BufferSel) : (s.withBuffer m sel).init = s.init := by
  cases sel <;> rfl
@[simp] theorem State.memWrite_init (s : State) (sel : BufferSel) (i : Nat) (v : Byte) : (s.memWrite sel i v).init = s.init := by
  cases sel <;> rfl
@[simp] theorem State.withBuffer_busy (s : State) (m : Memory) (sel : BufferSel) : (s.withBuffer m sel).busy = s.busy := by
  cases sel <;> rfl
@[simp] theorem State.memWrite_busy (s : State) (sel : BufferSel) (i : Nat) (v : Byte) : (s.memWrite sel i v).busy = s.busy := by
  cases sel <;> rfl
@[simp] theorem State.withBuffer_port (s : State) (m : Memory) (sel : BufferSel) : (s.withBuffer m sel).port = s.port := by
  cases sel <;> rfl
@[simp] theorem State.memWrite_port (s : State) (sel : BufferSel) (i : Nat) (v : Byte) : (s.memWrite sel i v).port = s.port := by
  cases sel <;> rfl
@[simp] theorem State.withBuffer_responses (s : State) (m : Memory) (sel : BufferSel) : (s.withBuffer m sel).responses = s.responses := by
  cases sel <;> rfl
@[simp] theorem State.memWrite_responses (s : State) (sel : BufferSel) (i : Nat) (v : Byte) : (s.memWrite sel i v).responses = s.responses := by
  cases sel <;> rfl
@[simp] theorem State.withBuffer_commits (s : State) (m : Memory) (sel : BufferSel) : (s.withBuffer m sel).commits = s.commits := by
  cases sel <;> rfl
@[simp] theorem State.memWrite_commits (s : State) (sel : BufferSel) (i : Nat) (v : Byte) : (s.memWrite sel i v).commits = s.commits := by
  cases sel <;> rfl
@[simp] theorem State.withBuffer_pdServes (s : State) (m : Memory) (sel : BufferSel) : (s.withBuffer m sel).pdServes = s.pdServes := by
  cases sel <;> rfl
@[simp] theorem State.memWrite_pdServes (s : State) (sel : BufferSel) (i : Nat) (v : Byte) : (s.memWrite sel i v).pdServes = s.pdServes := by
  cases sel <;> rfl

@[simp] theorem State.memWrite_mono_gb (s : State) (i : Nat) (v : Byte) : (s.memWrite .mono i v).gb = s.gb := rfl
@[simp] theorem State.memWrite_gray_mb (s : State) (i : Nat) (v : Byte) : (s.memWrite .gray i v).mb = s.mb := rfl
@[simp] theorem State.memWrite_mono_mb (s : State) (i : Nat) (v : Byte) :
    (s.memWrite .mono i v).mb = s.mb.write i v := rfl
@[simp] theorem State.memWrite_gray_gb (s : State) (i : Nat) (v : Byte) :
    (s.memWrite .gray i v).gb = s.gb.write i v := rfl

@[simp] theorem State.buffer_mono (s : State) : s.buffer .mono = s.mb := rfl
@[simp] theorem State.buffer_gray (s : State) : s.buffer .gray = s.gb := rfl
@[simp] theorem State.bufferSize_mono (s : State) : s.bufferSize .mono = s.cfg.msize := rfl
@[simp] theorem State.bufferSize_gray (s : State) : s.bufferSize .gray = s.cfg.gsize := rfl

@[simp] theorem State.buffer_withBuffer (s : State) (m : Memory) (sel : BufferSel) :
    (s.withBuffer m sel).buffer sel = m := by
  cases sel <;> rfl

theorem State.buffer_withBuffer_of_ne (s : State) (m : Memory) {sel sel' : BufferSel} (h : sel' ≠ sel) :
    (s.withBuffer m sel).buffer sel' = s.buffer sel' := by
  cases sel <;> cases sel' <;> first | rfl | exact absurd rfl h

@[simp] theorem State.bufferSize_withBuffer (s : State) (m : Memory) (sel sel' : BufferSel) :
    (s.withBuffer m sel).bufferSize sel' = s.bufferSize sel' := by
  cases sel <;> cases sel' <;> rfl

/-- The parts of a state that decide where a pixel goes: a buffer write leaves them all (R70, R74). -/
@[simp] theorem State.inBounds_memWrite (s : State) (sel : BufferSel) (i : Nat) (v : Byte) (x y : Int) :
    (s.memWrite sel i v).inBounds x y = s.inBounds x y := by
  simp [State.inBounds]

@[simp] theorem State.physical_memWrite (s : State) (sel : BufferSel) (i : Nat) (v : Byte) (x y : Int) :
    (s.memWrite sel i v).physical x y = s.physical x y := by
  simp [State.physical, State.xlate, State.xlateLit]

@[simp] theorem State.fallsOff_memWrite (s : State) (sel : BufferSel) (i : Nat) (v : Byte) (x y : Int) :
    (s.memWrite sel i v).fallsOff x y = s.fallsOff x y := by
  simp [State.fallsOff]

/-! ### Reset -/

@[simp] theorem State.resetWith_cfg (c : Config) (a b : Bool) : (State.resetWith c a b).cfg = c := rfl
@[simp] theorem State.resetWith_rot (c : Config) (a b : Bool) : (State.resetWith c a b).rot = 0#2 := rfl
@[simp] theorem State.resetWith_lw (c : Config) (a b : Bool) : (State.resetWith c a b).lw = c.logicalWidth 0#2 := rfl
@[simp] theorem State.resetWith_lh (c : Config) (a b : Bool) : (State.resetWith c a b).lh = c.logicalHeight 0#2 := rfl
@[simp] theorem State.resetWith_mode (c : Config) (a b : Bool) : (State.resetWith c a b).mode = 0xFFFFFFFF#32 := rfl
@[simp] theorem State.resetWith_mb (c : Config) (a b : Bool) : (State.resetWith c a b).mb = resetBuffer c.msize := rfl
@[simp] theorem State.resetWith_gb (c : Config) (a b : Bool) : (State.resetWith c a b).gb = resetBuffer c.gsize := rfl
@[simp] theorem State.resetWith_busy (c : Config) (a b : Bool) : (State.resetWith c a b).busy = false := rfl
@[simp] theorem State.resetWith_port (c : Config) (a b : Bool) : (State.resetWith c a b).port = [] := rfl
@[simp] theorem State.resetWith_responses (c : Config) (a b : Bool) : (State.resetWith c a b).responses = [] := rfl
@[simp] theorem State.resetWith_commits (c : Config) (a b : Bool) : (State.resetWith c a b).commits = [] := rfl
@[simp] theorem State.resetWith_pdServes (c : Config) (a b : Bool) : (State.resetWith c a b).pdServes = none := rfl
@[simp] theorem State.resetWith_init (c : Config) (a b : Bool) :
    (State.resetWith c a b).init = if a && b then .ready else .failed := rfl

end Sys2Proof.Machine
end

