-- ==== Sys2Proof/Laws/Ops.lean ====
section
/-! SUPPORT. One lemma per shared operation that says everything it can do: proofs cite these instead of unfolding the
operation. -/

namespace Sys2Proof.Machine

/-! ### The end of a command -/

@[simp] theorem Effect.finish_go (s : State) : (Effect.go s).finish = .next (s.respond .ok 0#32) := rfl
@[simp] theorem Effect.finish_raised (st : Status) (d : Value) (s : State) :
    (Effect.raised st d s).finish = .next (s.respond st d) := rfl
@[simp] theorem Effect.finish_waiting (s : State) : (Effect.waiting s).finish = .next { s with busy := true } := rfl
@[simp] theorem Effect.finish_fault (f : Fault) : (Effect.fault f).finish = .fault f := rfl

/-- The state an effect carries, none where it is a fault. -/
def Effect.carried : Effect → Option State
  | .go s => some s
  | .raised _ _ s => some s
  | .waiting s => some s
  | .fault _ => none

@[simp] theorem Effect.carried_go (s : State) : (Effect.go s).carried = some s := rfl
@[simp] theorem Effect.carried_raised (st : Status) (d : Value) (s : State) :
    (Effect.raised st d s).carried = some s := rfl
@[simp] theorem Effect.carried_waiting (s : State) : (Effect.waiting s).carried = some s := rfl
@[simp] theorem Effect.carried_fault (f : Fault) : (Effect.fault f).carried = none := rfl

/-- What a finished body can answer: the state it carries, with one response, or busy for good. -/
theorem Effect.finish_next {e : Effect} {t : State} (h : e.finish = .next t) :
    (∃ s, e = .go s ∧ t = s.respond .ok 0#32) ∨ (∃ st d s, e = .raised st d s ∧ t = s.respond st d) ∨
      (∃ s, e = .waiting s ∧ t = { s with busy := true }) := by
  cases e with
  | go s => exact .inl ⟨s, rfl, (Host.Outcome.next.inj h).symm⟩
  | raised st d s => exact .inr (.inl ⟨st, d, s, rfl, (Host.Outcome.next.inj h).symm⟩)
  | waiting s => exact .inr (.inr ⟨s, rfl, (Host.Outcome.next.inj h).symm⟩)
  | fault f => cases h

theorem whenReady_of_ready {s : State} (h : s.init = .ready) (b : Host.Outcome State Fault Refusal) :
    whenReady s b = b := by
  unfold whenReady
  rw [h]

theorem whenReady_of_failed {s : State} (h : s.init = .failed) (b : Host.Outcome State Fault Refusal) :
    whenReady s b = .next (s.respond .notInitialised 0#32) := by
  unfold whenReady
  rw [h]

/-- A command's two ways to a next state: the answer of a failed reset, or its own effect. -/
theorem whenReady_next {s t : State} {b : Host.Outcome State Fault Refusal} (h : whenReady s b = .next t) :
    (s.init = .failed ∧ t = s.respond .notInitialised 0#32) ∨ (s.init = .ready ∧ b = .next t) := by
  cases hi : s.init with
  | failed =>
    rw [whenReady_of_failed hi] at h
    exact .inl ⟨rfl, (Host.Outcome.next.inj h).symm⟩
  | ready =>
    rw [whenReady_of_ready hi] at h
    exact .inr ⟨rfl, h⟩

/-! ### The pixel write -/

theorem modifyByte_of_lt {sel : BufferSel} {i : Nat} {s : State} (h : i < s.bufferSize sel) (f : Byte → Byte) :
    modifyByte sel i f s = .go (s.memWrite sel i (f (s.memRead sel i))) :=
  if_pos h

theorem modifyByte_of_ge {sel : BufferSel} {i : Nat} {s : State} (h : ¬ i < s.bufferSize sel) (f : Byte → Byte) :
    modifyByte sel i f s = .fault .bufferIndexOutOfRange :=
  if_neg h

/-- A state carried on by a byte access is the one with that byte written (R32). -/
theorem modifyByte_carried {sel : BufferSel} {i : Nat} {f : Byte → Byte} {s t : State}
    (h : (modifyByte sel i f s).carried = some t) :
    i < s.bufferSize sel ∧ t = s.memWrite sel i (f (s.memRead sel i)) ∧ modifyByte sel i f s = .go t := by
  by_cases hi : i < s.bufferSize sel
  · rw [modifyByte_of_lt hi] at h ⊢
    cases h
    exact ⟨hi, rfl, rfl⟩
  · rw [modifyByte_of_ge hi] at h
    cases h

@[simp] theorem State.inBounds_iff (s : State) (x y : Int) :
    s.inBounds x y = true ↔ (0 ≤ x ∧ x < s.lw.toNat) ∧ (0 ≤ y ∧ y < s.lh.toNat) := by
  simp [State.inBounds]

@[simp] theorem Config.onPanel_iff (c : Config) (p : Pixel) :
    Config.onPanel c p = true ↔ (0 ≤ p.1 ∧ p.1 < c.pw) ∧ (0 ≤ p.2 ∧ p.2 < c.ph) := by
  simp [Config.onPanel]

theorem dispatchPixel_mono {s : State} (h : s.mode = modeMono) (p : Pixel) (c : Colour) :
    dispatchPixel p c s = modifyByte .mono (s.cfg.mbyte p.1.toNat p.2.toNat) (packMono p.1.toNat c) s :=
  if_pos h

theorem dispatchPixel_gray {s : State} (h : s.mode = modeGray) (p : Pixel) (c : Colour) :
    dispatchPixel p c s = modifyByte .gray (s.cfg.gbyte p.1.toNat p.2.toNat) (packGray p.1.toNat c) s := by
  unfold dispatchPixel
  rw [if_neg (by rw [h]; decide), if_pos h]
  rfl

theorem dispatchPixel_other {s : State} (h : s.mode ≠ modeMono) (h' : s.mode ≠ modeGray) (p : Pixel) (c : Colour) :
    dispatchPixel p c s = .go s := by
  unfold dispatchPixel
  rw [if_neg h, if_neg h']

/-- Everything WritePixel does (R70): it clips, it raises PHYS_OUT_OF_RANGE, or it dispatches. -/
theorem pixelWrite_cases (x y : Int) (c : Colour) (s : State) :
    (s.inBounds x y = false ∧ pixelWrite x y c s = .go s) ∨
    (s.inBounds x y = true ∧ s.fallsOff x y = true ∧
      pixelWrite x y c s = .raised .physOutOfRange (physInfo (s.physical x y)) s) ∨
    (s.inBounds x y = true ∧ s.fallsOff x y = false ∧ pixelWrite x y c s = dispatchPixel (s.physical x y) c s) := by
  unfold pixelWrite placePixel
  cases s.inBounds x y <;> cases s.fallsOff x y <;> simp

/-- The state a WritePixel carries on: the old one, or the old one with one byte of the mode's buffer written. -/
theorem pixelWrite_carried {x y : Int} {c : Colour} {s t : State} (h : (pixelWrite x y c s).carried = some t) :
    t = s ∨
    (s.mode = modeMono ∧ ∃ i v, i < s.cfg.msize ∧ t = s.memWrite .mono i v) ∨
    (s.mode = modeGray ∧ ∃ i v, i < s.cfg.gsize ∧ t = s.memWrite .gray i v) := by
  rcases pixelWrite_cases x y c s with ⟨-, e⟩ | ⟨-, -, e⟩ | ⟨-, -, e⟩ <;> rw [e] at h
  · exact .inl (Option.some.inj h).symm
  · exact .inl (Option.some.inj h).symm
  · by_cases h1 : s.mode = modeMono
    · rw [dispatchPixel_mono h1] at h
      obtain ⟨hi, ht, -⟩ := modifyByte_carried h
      exact .inr (.inl ⟨h1, _, _, hi, ht⟩)
    · by_cases h3 : s.mode = modeGray
      · rw [dispatchPixel_gray h3] at h
        obtain ⟨hi, ht, -⟩ := modifyByte_carried h
        exact .inr (.inr ⟨h3, _, _, hi, ht⟩)
      · rw [dispatchPixel_other h1 h3] at h
        exact .inl (Option.some.inj h).symm

/-! ### The expander -/

@[simp] theorem expand_nil (c : Colour) (s : State) : expand c [] s = .go s := rfl

theorem expand_cons_go {c : Colour} {p : Pixel} {s t : State} (h : pixelWrite p.1 p.2 c s = .go t) (ps : List Pixel) :
    expand c (p :: ps) s = expand c ps t := by
  rw [expand, h]

theorem expand_cons_raised {c : Colour} {p : Pixel} {s t : State} {st : Status} {d : Value}
    (h : pixelWrite p.1 p.2 c s = .raised st d t) (ps : List Pixel) : expand c (p :: ps) s = .raised st d t := by
  rw [expand, h]

/-- One pixel as a list is the pixel (R71, R77). -/
theorem expand_singleton (c : Colour) (p : Pixel) (s : State) : expand c [p] s = pixelWrite p.1 p.2 c s := by
  rw [expand]
  cases pixelWrite p.1 p.2 c s <;> rfl

/-- A list in two parts: the second runs where the first went on. -/
theorem expand_append {c : Colour} {s t : State} {ps : List Pixel} (h : expand c ps s = .go t) (qs : List Pixel) :
    expand c (ps ++ qs) s = expand c qs t := by
  induction ps generalizing s with
  | nil =>
    cases h
    rfl
  | cons p ps ih =>
    rw [List.cons_append, expand]
    rw [expand] at h
    cases hp : pixelWrite p.1 p.2 c s with
    | go u =>
      rw [hp] at h
      exact ih h
    | raised st d u => rw [hp] at h; cases h
    | waiting u => rw [hp] at h; cases h
    | fault f => rw [hp] at h; cases h

/-- A relation that holds from a state to itself, composes, and holds across every WritePixel holds across a whole
primitive. -/
theorem expand_carried {R : State → State → Prop} (hrefl : ∀ s, R s s) (htrans : ∀ {s t u}, R s t → R t u → R s u)
    {c : Colour} (hstep : ∀ {x y s t}, (pixelWrite x y c s).carried = some t → R s t) {ps : List Pixel} {s t : State}
    (h : (expand c ps s).carried = some t) : R s t := by
  induction ps generalizing s with
  | nil =>
    cases h
    exact hrefl _
  | cons p ps ih =>
    rw [expand] at h
    cases hp : pixelWrite p.1 p.2 c s with
    | go u =>
      rw [hp] at h
      exact htrans (hstep (x := p.1) (y := p.2) (by rw [hp]; rfl)) (ih h)
    | raised st d u =>
      rw [hp] at h
      cases h
      exact hstep (x := p.1) (y := p.2) (by rw [hp]; rfl)
    | waiting u =>
      rw [hp] at h
      cases h
      exact hstep (x := p.1) (y := p.2) (by rw [hp]; rfl)
    | fault f =>
      rw [hp] at h
      cases h

/-- `t` is `s` but for the buffer of the current mode: MB in MODE 1, GB in MODE 3, nothing in any other (R26, R67). -/
def State.drawnTo (s t : State) : Prop :=
  t = { s with mb := t.mb, gb := t.gb } ∧ (s.mode ≠ modeMono → t.mb = s.mb) ∧ (s.mode ≠ modeGray → t.gb = s.gb)

theorem State.drawnTo_refl (s : State) : s.drawnTo s := ⟨rfl, fun _ => rfl, fun _ => rfl⟩

theorem State.drawnTo_trans {s t u : State} (h : s.drawnTo t) (h' : t.drawnTo u) : s.drawnTo u := by
  obtain ⟨e, hm, hg⟩ := h
  obtain ⟨e', hm', hg'⟩ := h'
  have mode : t.mode = s.mode := by rw [e]
  rw [mode] at hm' hg'
  refine ⟨?_, fun h => (hm' h).trans (hm h), fun h => (hg' h).trans (hg h)⟩
  rw [e', e]

theorem pixelWrite_drawnTo {x y : Int} {c : Colour} {s t : State} (h : (pixelWrite x y c s).carried = some t) :
    s.drawnTo t := by
  rcases pixelWrite_carried h with rfl | ⟨hm, i, v, -, rfl⟩ | ⟨hm, i, v, -, rfl⟩
  · exact State.drawnTo_refl _
  · exact ⟨rfl, fun h => absurd hm h, fun _ => rfl⟩
  · exact ⟨rfl, fun _ => rfl, fun h => absurd hm h⟩

/-- The frame of every drawing primitive (R74, R77). -/
theorem expand_drawnTo {c : Colour} {ps : List Pixel} {s t : State} (h : (expand c ps s).carried = some t) :
    s.drawnTo t :=
  expand_carried State.drawnTo_refl State.drawnTo_trans pixelWrite_drawnTo h

/-- What a drawing primitive can answer: it went on, or raised PHYS_OUT_OF_RANGE, or made an access that does not
exist; it never waits for the panel driver. -/
theorem expand_cases (c : Colour) (ps : List Pixel) (s : State) :
    (∃ t, expand c ps s = .go t) ∨ (∃ d t, expand c ps s = .raised .physOutOfRange d t) ∨
      expand c ps s = .fault .bufferIndexOutOfRange := by
  have modify : ∀ sel i f (s : State), (∃ t, modifyByte sel i f s = .go t) ∨
      modifyByte sel i f s = .fault .bufferIndexOutOfRange := by
    intro sel i f s
    by_cases hi : i < s.bufferSize sel
    · exact .inl ⟨_, modifyByte_of_lt hi f⟩
    · exact .inr (modifyByte_of_ge hi f)
  have dispatch : ∀ p (s : State), (∃ t, dispatchPixel p c s = .go t) ∨
      dispatchPixel p c s = .fault .bufferIndexOutOfRange := by
    intro p s
    by_cases h1 : s.mode = modeMono
    · rw [dispatchPixel_mono h1]
      exact modify _ _ _ _
    · by_cases h3 : s.mode = modeGray
      · rw [dispatchPixel_gray h3]
        exact modify _ _ _ _
      · exact .inl ⟨s, dispatchPixel_other h1 h3 p c⟩
  induction ps generalizing s with
  | nil => exact .inl ⟨s, rfl⟩
  | cons p ps ih =>
    rcases pixelWrite_cases p.1 p.2 c s with ⟨-, e⟩ | ⟨-, -, e⟩ | ⟨-, -, e⟩
    · rw [expand_cons_go e]
      exact ih s
    · exact .inr (.inl ⟨_, _, expand_cons_raised e ps⟩)
    · rcases dispatch (s.physical p.1 p.2) s with ⟨t, h⟩ | h
      · rw [expand_cons_go (e.trans h)]
        exact ih t
      · exact .inr (.inr (by rw [expand, e, h]))

/-! ### The panel-driver port -/

theorem State.panelRequest_of_serves {s : State} (h : s.driverServes) :
    s.panelRequest = some { s with pdServes := servesLeft s.pdServes } := by
  unfold State.panelRequest
  match hs : s.pdServes with
  | none => cases s; simp_all [servesLeft]
  | some 0 => exact absurd hs h
  | some (n + 1) => rfl

theorem State.panelRequest_of_silent {s : State} (h : s.pdServes = some 0) : s.panelRequest = none := by
  unfold State.panelRequest
  rw [h]

/-- Everything a clear does (R33, R116). -/
theorem clearBuffer_cases (sel : BufferSel) (s : State) :
    (s.driverServes ∧ clearBuffer sel s = .go (State.withBuffer { s with pdServes := servesLeft s.pdServes }
      (Memory.filled (s.bufferSize sel) (Config.clearFill s.cfg sel)) sel)) ∨
    (s.pdServes = some 0 ∧ clearBuffer sel s = .waiting s) := by
  by_cases h : s.pdServes = some 0
  · right
    refine ⟨h, ?_⟩
    unfold clearBuffer
    rw [State.panelRequest_of_silent h]
  · left
    refine ⟨h, ?_⟩
    unfold clearBuffer
    rw [State.panelRequest_of_serves h]

/-- Everything a commit does (R87, R116). -/
theorem commitBuffer_cases (sel : BufferSel) (s : State) :
    (s.driverServes ∧ commitBuffer sel s =
      .go { s with pdServes := servesLeft s.pdServes, commits := s.commits ++ [s.commitEvent sel] }) ∨
    (s.pdServes = some 0 ∧ commitBuffer sel s = .waiting s) := by
  by_cases h : s.pdServes = some 0
  · right
    refine ⟨h, ?_⟩
    unfold commitBuffer
    rw [State.panelRequest_of_silent h]
  · left
    refine ⟨h, ?_⟩
    unfold commitBuffer
    rw [State.panelRequest_of_serves h]

/-! ### The mode commands -/

/-- `valid(m)` in R57's words. -/
theorem validMode_iff (p : ModePolicy) (m : Value) :
    validMode p m = true ↔ p = .permissive ∨ m = modeUninit ∨ m = modeMono ∨ m = modeGray := by
  cases p <;> simp [validMode, namedMode, or_assoc]

/-- Everything the body of SET_DISPLAY_MODE does (R58). -/
theorem assignMode_cases (m : Value) (s : State) :
    (validMode s.cfg.modePolicy m = true ∧ assignMode m s = .go (s.withMode m)) ∨
    (validMode s.cfg.modePolicy m = false ∧ assignMode m s = .raised .invalidMode m s) := by
  unfold assignMode
  cases validMode s.cfg.modePolicy m <;> simp

/-- Everything the body of SELECT_DISPLAY_MODE does (R59). -/
theorem selectMode_cases (m : Value) (s : State) :
    (validMode s.cfg.modePolicy m = true ∧ m = s.mode ∧ selectMode m s = .go s) ∨
    (validMode s.cfg.modePolicy m = true ∧ m ≠ s.mode ∧
      selectMode m s = clearBuffer (bufferOfMode m) (s.withMode m)) ∨
    (validMode s.cfg.modePolicy m = false ∧ selectMode m s = .raised .invalidMode m s) := by
  unfold selectMode
  by_cases hm : m = s.mode <;> cases validMode s.cfg.modePolicy m <;> simp [hm]

end Sys2Proof.Machine
end

