-- ==== Sys2Proof/Laws/Packers.lean ====
section
/-! SUPPORT. The arithmetic of the pixel layouts: which bits of a byte each packer writes (R68, R69), which byte index a
panel pixel has (R27, R28), and that a pixel which passes the range check lies on the panel (R65, R66). -/

namespace Sys2Proof

/-! ### Byte indices -/

theorem Config.mbyte_lt {c : Config} (hc : c.legal) {x0 y0 : Nat} (hx : x0 < c.pw) (hy : y0 < c.ph) :
    c.mbyte x0 y0 < c.msize := by
  have : x0 / 8 < c.pw / 8 := by have := hc.2.2.1; omega
  calc c.mbyte x0 y0 < c.pw / 8 * y0 + c.pw / 8 := by unfold Config.mbyte Config.mstride; omega
    _ = c.pw / 8 * (y0 + 1) := by ring
    _ ≤ _ := Nat.mul_le_mul_left _ hy

theorem Config.gbyte_lt {c : Config} (hc : c.legal) {x0 y0 : Nat} (hx : x0 < c.pw) (hy : y0 < c.ph) :
    c.gbyte x0 y0 < c.gsize := by
  have : x0 / 2 < c.pw / 2 := by have := hc.2.2.1; omega
  calc c.gbyte x0 y0 < c.pw / 2 * y0 + c.pw / 2 := by unfold Config.gbyte Config.gstride; omega
    _ = c.pw / 2 * (y0 + 1) := by ring
    _ ≤ _ := Nat.mul_le_mul_left _ hy

/-- A flat index determines the row and the column. -/
theorem flatIndex_inj {m a b y y' : Nat} (ha : a < m) (hb : b < m) (h : m * y + a = m * y' + b) : y = y' ∧ a = b := by
  have hm : 0 < m := by omega
  have h1 : (m * y + a) / m = y := by rw [Nat.mul_add_div hm, Nat.div_eq_of_lt ha]; omega
  have h2 : (m * y' + b) / m = y' := by rw [Nat.mul_add_div hm, Nat.div_eq_of_lt hb]; omega
  have : y = y' := by rw [← h1, ← h2, h]
  exact ⟨this, by subst this; omega⟩

namespace Machine

/-! ### The bits of a byte -/

/-- The pixel's own bit after the 1-bit packer. -/
theorem monoPixelOf_packMono_self (x0 : Nat) (c : Colour) (b : Byte) :
    monoPixelOf x0 (packMono x0 c b) = if c = 0#16 then 0#8 else 1#8 := by
  unfold monoPixelOf packMono mbit colourSets
  have hp : x0 % 8 < 8 := by omega
  generalize x0 % 8 = p at hp
  by_cases hc : c = 0#16 <;>
    simp only [hc, ne_eq, not_true, not_false_eq_true, decide_true, decide_false, if_true, if_false,
      Bool.false_eq_true] <;>
  · clear hc; revert b; interval_cases p <;> decide

/-- The 1-bit packer changes no bit but the pixel's own. -/
theorem packMono_getLsbD_of_ne {x0 k : Nat} (h : k ≠ mbit x0) (c : Colour) (b : Byte) :
    (packMono x0 c b).getLsbD k = b.getLsbD k := by
  by_cases hk : k < 8
  · unfold packMono
    unfold mbit at h
    have hp : x0 % 8 < 8 := by omega
    generalize x0 % 8 = p at *
    cases colourSets c <;> simp only [if_true, if_false, Bool.false_eq_true] <;>
    · revert b; interval_cases p <;> interval_cases k <;> first | (exact absurd rfl h) | decide
  · rw [BitVec.getLsbD_of_ge _ _ (by omega), BitVec.getLsbD_of_ge _ _ (by omega)]

/-- The 1-bit packer leaves the other pixels of the byte as they were. -/
theorem monoPixelOf_packMono_other {x0 x1 : Nat} (h : x0 % 8 ≠ x1 % 8) (c : Colour) (b : Byte) :
    monoPixelOf x1 (packMono x0 c b) = monoPixelOf x1 b := by
  unfold monoPixelOf packMono mbit
  have hp : x0 % 8 < 8 := by omega
  have hq : x1 % 8 < 8 := by omega
  generalize x0 % 8 = p at *
  generalize x1 % 8 = q at *
  cases colourSets c <;> simp only [if_true, if_false, Bool.false_eq_true] <;>
  · revert b; interval_cases p <;> interval_cases q <;> first | (exact absurd rfl h) | decide

/-- The low three bits of a colour, as a number below 8. -/
theorem colour_and_seven (c : Colour) : c &&& 7#16 = BitVec.ofNat 16 (c.toNat % 8) := by
  apply BitVec.eq_of_toNat_eq
  have h := Nat.and_two_pow_sub_one_eq_mod c.toNat 3
  have h3 : c.toNat &&& 7 = c.toNat % 8 := h
  rw [BitVec.toNat_and, show BitVec.toNat 7#16 = 7 from rfl, h3, BitVec.toNat_ofNat]
  omega

/-- The pixel's own nibble after the 4-bit packer: the level, and the reserved bit 0 (R29). -/
theorem grayPixelOf_packGray_self (x0 : Nat) (c : Colour) (b : Byte) :
    grayPixelOf x0 (packGray x0 c b) = (c &&& 7#16).setWidth 8 ∧ grayReservedOf x0 (packGray x0 c b) = 0#8 := by
  unfold grayPixelOf grayReservedOf packGray gshift colourLevel
  have hp : x0 % 2 < 2 := by omega
  rw [colour_and_seven]
  have hk : c.toNat % 8 < 8 := by omega
  generalize x0 % 2 = p at *
  generalize c.toNat % 8 = k at *
  revert b; interval_cases p <;> interval_cases k <;> decide

/-- The 4-bit packer changes no bit but the pixel's own nibble. -/
theorem packGray_getLsbD_of_ne {x0 k : Nat} (h : if x0 % 2 = 0 then k < 4 else 4 ≤ k) (c : Colour) (b : Byte) :
    (packGray x0 c b).getLsbD k = b.getLsbD k := by
  by_cases hk : k < 8
  · unfold packGray gshift colourLevel
    have hp : x0 % 2 < 2 := by omega
    rw [colour_and_seven]
    have hkk : c.toNat % 8 < 8 := by omega
    generalize x0 % 2 = p at *
    generalize c.toNat % 8 = q at *
    revert b; interval_cases p <;> interval_cases k <;> first | (simp at h; done) | (interval_cases q <;> decide)
  · rw [BitVec.getLsbD_of_ge _ _ (by omega), BitVec.getLsbD_of_ge _ _ (by omega)]

/-- The 4-bit packer leaves the other pixel of the byte as it was. -/
theorem grayPixelOf_packGray_other {x0 x1 : Nat} (h : x0 % 2 ≠ x1 % 2) (c : Colour) (b : Byte) :
    grayPixelOf x1 (packGray x0 c b) = grayPixelOf x1 b ∧
      grayReservedOf x1 (packGray x0 c b) = grayReservedOf x1 b := by
  unfold grayPixelOf grayReservedOf packGray gshift colourLevel
  have hp : x0 % 2 < 2 := by omega
  have hq : x1 % 2 < 2 := by omega
  rw [colour_and_seven]
  have hk : c.toNat % 8 < 8 := by omega
  generalize x0 % 2 = p at *
  generalize x1 % 2 = q at *
  generalize c.toNat % 8 = k at *
  revert b; interval_cases p <;> interval_cases q <;> first | (exact absurd rfl h) | (interval_cases k <;> decide)

/-! ### Rotations and the range check -/

theorem rotation_cases (r : BitVec 2) : r = 0#2 ∨ r = 1#2 ∨ r = 2#2 ∨ r = 3#2 := by revert r; decide

/-- A dimension fits its register. -/
theorem dimension_toNat {n : Nat} (h : n ≤ 32767) : (BitVec.ofNat 16 n).toNat = n := by
  rw [BitVec.toNat_ofNat]; omega

theorem evenRotation_eq (r : BitVec 2) : evenRotation r = decide (r.toNat % 2 = 0) := by revert r; decide

theorem maskedRotation_toNat (v : Value) : (maskedRotation v).toNat = v.toNat % 4 := by
  have h : v.toNat &&& 3 = v.toNat % 4 := Nat.and_two_pow_sub_one_eq_mod v.toNat 2
  rw [maskedRotation, BitVec.toNat_setWidth, BitVec.toNat_and, show BitVec.toNat 3#32 = 3 from rfl, h]
  omega

/-- In a state of the invariant, an in-bounds pixel that passes the range check lies on the panel. -/
theorem State.physical_onPanel {s : State} (h : s.inv) {x y : Int} (hb : s.inBounds x y = true)
    (hf : s.fallsOff x y = false) : Config.onPanel s.cfg (s.physical x y) = true := by
  obtain ⟨⟨l1, l2, l3, l4, l5⟩, ⟨hw, hh⟩, -⟩ := h
  cases hv : s.cfg.rotVariant with
  | literal => simpa [State.fallsOff, hv] using hf
  | logical =>
    rw [State.inBounds_iff, hw, hh] at hb
    rw [Config.onPanel_iff]
    simp only [State.physical, hv, State.xlate, rotatePixel, hw, hh]
    rcases rotation_cases s.rot with hr | hr | hr | hr <;> rw [hr] at hb ⊢ <;>
      simp [Config.logicalWidth, Config.logicalHeight, evenRotation] at hb ⊢ <;>
      omega

end Machine

end Sys2Proof
end

