-- ==== Sys2Proof/Laws/PerInstr.lean ====
section
/-! SUPPORT. The per-instruction family `EncodeFields`: the opcode byte each instruction's word carries, with RSV zero, and
that the decoder's row for that byte is the instruction's own (R42, R46, R51). -/

namespace Sys2Proof.Laws.EncodeFields

/-- The row of R46 that an instruction belongs to. -/
def rowOf : Instr → Opcode
  | .writePixel _ _ _ => .writePixel
  | .drawPixel _ _ _ => .drawPixel
  | .writeFastHLine _ _ _ _ => .writeFastHLine
  | .writeFastVLine _ _ _ _ => .writeFastVLine
  | .writeFillRect _ _ _ _ _ => .writeFillRect
  | .writeLine _ _ _ _ _ => .writeLine
  | .startWrite => .startWrite
  | .endWrite => .endWrite
  | .setRotation _ => .setRotation
  | .getRotation => .getRotation
  | .setDisplayMode _ => .setDisplayMode
  | .selectDisplayMode _ => .selectDisplayMode
  | .getDisplayMode => .getDisplayMode
  | .getWidth => .getWidth
  | .getHeight => .getHeight
  | .showBuffer => .showBuffer

/-- The word of `i` carries its row's OPC, has RSV zero, and its OPC finds its row. -/
def Statement (i : Instr) : Prop :=
  fieldOpc (encode i) = (rowOf i).code ∧ fieldRsv (encode i) = 0#40 ∧ opcodeOf (fieldOpc (encode i)) = some (rowOf i)

/-- Whatever its operands, a word put together for row `o` has the three properties. -/
theorem assembled (o : Opcode) (c : Colour) (f3 f2 f1 f0 : BitVec 16) :
    fieldOpc (assembleWord o c f3 f2 f1 f0) = o.code ∧ fieldRsv (assembleWord o c f3 f2 f1 f0) = 0#40 ∧
      opcodeOf (fieldOpc (assembleWord o c f3 f2 f1 f0)) = some o :=
  ⟨fieldOpc_assembleWord .., fieldRsv_assembleWord .., by rw [fieldOpc_assembleWord, opcodeOf_code]⟩

theorem writePixel (x y : Int) (c : Colour) : Statement (.writePixel x y c) := assembled ..
theorem drawPixel (x y : Int) (c : Colour) : Statement (.drawPixel x y c) := assembled ..
theorem writeFastHLine (x y w : Int) (c : Colour) : Statement (.writeFastHLine x y w c) := assembled ..
theorem writeFastVLine (x y h : Int) (c : Colour) : Statement (.writeFastVLine x y h c) := assembled ..
theorem writeFillRect (x y w h : Int) (c : Colour) : Statement (.writeFillRect x y w h c) := assembled ..
theorem writeLine (x0 y0 x1 y1 : Int) (c : Colour) : Statement (.writeLine x0 y0 x1 y1 c) := assembled ..
theorem startWrite : Statement .startWrite := assembled ..
theorem endWrite : Statement .endWrite := assembled ..
theorem setRotation (v : Value) : Statement (.setRotation v) := assembled ..
theorem getRotation : Statement .getRotation := assembled ..
theorem setDisplayMode (m : Value) : Statement (.setDisplayMode m) := assembled ..
theorem selectDisplayMode (m : Value) : Statement (.selectDisplayMode m) := assembled ..
theorem getDisplayMode : Statement .getDisplayMode := assembled ..
theorem getWidth : Statement .getWidth := assembled ..
theorem getHeight : Statement .getHeight := assembled ..
theorem showBuffer : Statement .showBuffer := assembled ..

end Sys2Proof.Laws.EncodeFields
end

