-- ==== Sys2Proof/Laws/Step.lean ====
section
/-! SUPPORT. What `exec` and `step` can do, said once. -/

namespace Sys2Proof.Machine

/-! ### The drawing commands are lists of pixel writes -/

theorem exec_writePixel (x y : Int) (c : Colour) (s : State) :
    exec (.writePixel x y c) s = whenReady s (expand c [(x, y)] s).finish := by
  rw [expand_singleton]
  rfl

theorem exec_drawPixel (x y : Int) (c : Colour) (s : State) :
    exec (.drawPixel x y c) s = whenReady s (expand c [(x, y)] s).finish := by
  rw [expand_singleton]
  rfl

/-- Every drawing command expands its own pixel list (R77). -/
theorem exec_of_drawnPixels {i : Instr} {ps : List Pixel} (h : drawnPixels i = some ps) (s : State) :
    ∃ c : Colour, exec i s = whenReady s (expand c ps s).finish := by
  cases i with
  | writePixel x y c => cases h; exact ⟨c, exec_writePixel x y c s⟩
  | drawPixel x y c => cases h; exact ⟨c, exec_drawPixel x y c s⟩
  | writeFastHLine x y w c => cases h; exact ⟨c, rfl⟩
  | writeFastVLine x y h' c => cases h; exact ⟨c, rfl⟩
  | writeFillRect x y w h' c => cases h; exact ⟨c, rfl⟩
  | writeLine x0 y0 x1 y1 c => cases h; exact ⟨c, rfl⟩
  | _ => cases h

/-- Everything a command can do where it answers a next state: the answer of a failed reset, or its own effect. -/
theorem exec_next {i : Instr} {s t : State} (h : exec i s = .next t) :
    (s.init = .failed ∧ t = s.respond .notInitialised 0#32) ∨
    (s.init = .ready ∧ (
      (∃ c ps, drawnPixels i = some ps ∧ (expand c ps s).finish = .next t) ∨
      ((i = .startWrite ∨ i = .endWrite) ∧ t = s.respond .ok 0#32) ∨
      (∃ v, i = .setRotation v ∧ t = (s.withRotation (maskedRotation v)).respond .ok 0#32) ∨
      (i = .getRotation ∧ t = s.respond .ok (s.rot.setWidth 32)) ∨
      (∃ m, i = .setDisplayMode m ∧ (assignMode m s).finish = .next t) ∨
      (∃ m, i = .selectDisplayMode m ∧ (selectMode m s).finish = .next t) ∨
      (i = .getDisplayMode ∧ t = s.respond .ok s.mode) ∨
      (i = .getWidth ∧ t = s.respond .ok (s.lw.setWidth 32)) ∨
      (i = .getHeight ∧ t = s.respond .ok (s.lh.setWidth 32)) ∨
      (i = .showBuffer ∧ (commitBuffer (bufferOfMode s.mode) s).finish = .next t))) := by
  cases i with
  | writePixel x y c =>
    rw [exec_writePixel] at h
    exact (whenReady_next h).imp_right fun ⟨hr, hb⟩ => ⟨hr, .inl ⟨c, _, rfl, hb⟩⟩
  | drawPixel x y c =>
    rw [exec_drawPixel] at h
    exact (whenReady_next h).imp_right fun ⟨hr, hb⟩ => ⟨hr, .inl ⟨c, _, rfl, hb⟩⟩
  | writeFastHLine x y w c => exact (whenReady_next h).imp_right fun ⟨hr, hb⟩ => ⟨hr, .inl ⟨c, _, rfl, hb⟩⟩
  | writeFastVLine x y h' c => exact (whenReady_next h).imp_right fun ⟨hr, hb⟩ => ⟨hr, .inl ⟨c, _, rfl, hb⟩⟩
  | writeFillRect x y w h' c => exact (whenReady_next h).imp_right fun ⟨hr, hb⟩ => ⟨hr, .inl ⟨c, _, rfl, hb⟩⟩
  | writeLine x0 y0 x1 y1 c => exact (whenReady_next h).imp_right fun ⟨hr, hb⟩ => ⟨hr, .inl ⟨c, _, rfl, hb⟩⟩
  | startWrite =>
    exact (whenReady_next h).imp_right fun ⟨hr, hb⟩ => ⟨hr, by cases hb; simp⟩
  | endWrite =>
    exact (whenReady_next h).imp_right fun ⟨hr, hb⟩ => ⟨hr, by cases hb; simp⟩
  | setRotation v => exact (whenReady_next h).imp_right fun ⟨hr, hb⟩ => ⟨hr, by cases hb; simp⟩
  | getRotation => exact (whenReady_next h).imp_right fun ⟨hr, hb⟩ => ⟨hr, by cases hb; simp⟩
  | setDisplayMode m => exact (whenReady_next h).imp_right fun ⟨hr, hb⟩ => ⟨hr, by simpa [drawnPixels] using hb⟩
  | selectDisplayMode m => exact (whenReady_next h).imp_right fun ⟨hr, hb⟩ => ⟨hr, by simpa [drawnPixels] using hb⟩
  | getDisplayMode => exact (whenReady_next h).imp_right fun ⟨hr, hb⟩ => ⟨hr, by cases hb; simp⟩
  | getWidth => exact (whenReady_next h).imp_right fun ⟨hr, hb⟩ => ⟨hr, by cases hb; simp⟩
  | getHeight => exact (whenReady_next h).imp_right fun ⟨hr, hb⟩ => ⟨hr, by cases hb; simp⟩
  | showBuffer => exact (whenReady_next h).imp_right fun ⟨hr, hb⟩ => ⟨hr, by simpa [drawnPixels] using hb⟩

/-! ### The step -/

theorem State.accept_stuck {s : State} (h : s.busy = true) : s.accept = .stuck := by
  simp [State.accept, h]

theorem State.accept_idle {s : State} (h : s.busy = false) (hp : s.port = []) : s.accept = .idle := by
  simp [State.accept, h, hp]

theorem State.accept_command {s : State} (h : s.busy = false) {cw : CommandWord} {rest : List CommandWord}
    (hp : s.port = cw :: rest) : s.accept = .command cw { s with port := rest, busy := true } := by
  simp [State.accept, h, hp]

/-- Everything a step can do (R49, R109, R112, R116). -/
theorem step_cases (s : State) :
    (s.busy = true ∧ step s = .fault .panelNeverCompletes) ∨
    (s.busy = false ∧ s.port = [] ∧ step s = .next s) ∨
    (∃ cw rest, s.busy = false ∧ s.port = cw :: rest ∧
      ((∃ st d, verdict s.init cw = .answer st d ∧
          step s = .next (State.respond st d { s with port := rest, busy := true })) ∨
        (∃ i, verdict s.init cw = .run i ∧ step s = exec i { s with port := rest, busy := true }))) := by
  cases hb : s.busy with
  | true => exact .inl ⟨rfl, by rw [step, State.accept_stuck hb]⟩
  | false =>
    right
    match hp : s.port with
    | [] => exact .inl ⟨rfl, rfl, by rw [step, State.accept_idle hb hp]⟩
    | cw :: rest =>
      refine .inr ⟨cw, rest, rfl, rfl, ?_⟩
      have hs : step s = match verdict s.init cw with
          | .answer st info => .next (State.respond st info { s with port := rest, busy := true })
          | .run i => exec i { s with port := rest, busy := true } := by
        rw [step, State.accept_command hb hp] <;> rfl
      cases hv : verdict s.init cw with
      | answer st d => exact .inl ⟨st, d, rfl, by rw [hs, hv]⟩
      | run i => exact .inr ⟨i, rfl, by rw [hs, hv]⟩

/-- Everything the decoder's checks can say, in the order of R96. -/
theorem verdict_cases (init : InitState) (cw : CommandWord) :
    (init = .failed ∧ verdict init cw = .answer .notInitialised 0#32) ∨
    (init = .ready ∧ (∃ opc, decode cw = .illegalOpcode opc ∧
      verdict init cw = .answer .illegalOpcode (opc.setWidth 32))) ∨
    (init = .ready ∧ decode cw = .reservedNonzero ∧ verdict init cw = .answer .reservedNonzero 0#32) ∨
    (init = .ready ∧ ∃ i, decode cw = .instr i ∧ verdict init cw = .run i) := by
  cases init with
  | failed => exact .inl ⟨rfl, rfl⟩
  | ready =>
    cases h : decode cw with
    | instr i => exact .inr (.inr (.inr ⟨rfl, i, rfl, by simp [verdict, h]⟩))
    | illegalOpcode opc => exact .inr (.inl ⟨rfl, opc, rfl, by simp [verdict, h]⟩)
    | reservedNonzero => exact .inr (.inr (.inl ⟨rfl, rfl, by simp [verdict, h]⟩))

end Sys2Proof.Machine
end

