-- ==== Sys2Proof/Tests/Slice0.lean ====
section
/-! SUPPORT. Small tests of the model. Expected values come from 95_test_vectors.md (its row ids are cited) or by hand from
the cited rule. The last part holds, for each statement with hypotheses, a state and operands that meet them. -/

open Sys2Proof Sys2Proof.Machine

namespace Sys2Proof.Tests

/-! ### Well-formedness: each 16-bit operand is checked at its own place (R43) -/

theorem test_wf_bounds : coordFits (-32768) = true ∧ coordFits 32767 = true ∧ coordFits (-32769) = false ∧
    coordFits 32768 = false := by decide

theorem test_wf_pixel_refuses : Instr.wellFormed (.writePixel 32768 0 0#16) = false ∧
    Instr.wellFormed (.writePixel 0 (-32769) 0#16) = false ∧ Instr.wellFormed (.drawPixel 32768 0 0#16) = false ∧
    Instr.wellFormed (.drawPixel 0 32768 0#16) = false := by decide

theorem test_wf_run_refuses : Instr.wellFormed (.writeFastHLine 32768 0 0 0#16) = false ∧
    Instr.wellFormed (.writeFastHLine 0 32768 0 0#16) = false ∧
    Instr.wellFormed (.writeFastHLine 0 0 32768 0#16) = false ∧
    Instr.wellFormed (.writeFastVLine 32768 0 0 0#16) = false ∧
    Instr.wellFormed (.writeFastVLine 0 32768 0 0#16) = false ∧
    Instr.wellFormed (.writeFastVLine 0 0 (-32769) 0#16) = false := by decide

theorem test_wf_rect_refuses : Instr.wellFormed (.writeFillRect 32768 0 0 0 0#16) = false ∧
    Instr.wellFormed (.writeFillRect 0 32768 0 0 0#16) = false ∧
    Instr.wellFormed (.writeFillRect 0 0 32768 0 0#16) = false ∧
    Instr.wellFormed (.writeFillRect 0 0 0 32768 0#16) = false := by decide

theorem test_wf_line_refuses : Instr.wellFormed (.writeLine 32768 0 0 0 0#16) = false ∧
    Instr.wellFormed (.writeLine 0 32768 0 0 0#16) = false ∧ Instr.wellFormed (.writeLine 0 0 32768 0 0#16) = false ∧
    Instr.wellFormed (.writeLine 0 0 0 (-32769) 0#16) = false := by decide

/-! ### Decoding: the words of 95_test_vectors.md section 3, and every constructor -/

theorem test_decode_writePixel : decode 0x0100000000000001000000000014000A#128 = .instr (.writePixel 10 20 1#16) := by
  decide
theorem test_decode_writePixel_negative :
    decode 0x0100000000000001000000000000FFFF#128 = .instr (.writePixel (-1) 0 1#16) := by decide
theorem test_decode_drawPixel : decode 0x0200000000000001000000000014000A#128 = .instr (.drawPixel 10 20 1#16) := by
  decide
theorem test_decode_writeFastHLine :
    decode 0x03000000000000000000000200000000#128 = .instr (.writeFastHLine 0 0 2 0#16) := by decide
theorem test_decode_writeFastVLine :
    decode 0x040000000000FFFF00000003FFFF0000#128 = .instr (.writeFastVLine 0 (-1) 3 0xFFFF#16) := by decide
theorem test_decode_writeFillRect :
    decode 0x05000000000000010002000400030002#128 = .instr (.writeFillRect 2 3 4 2 1#16) := by decide
theorem test_decode_writeLine :
    decode 0x0600000000000007000000020000FFFE#128 = .instr (.writeLine (-2) 0 2 0 7#16) := by decide
theorem test_decode_brackets : decode 0x07000000000000000000000000000000#128 = .instr .startWrite ∧
    decode 0x08000000000000000000000000000000#128 = .instr .endWrite := by decide
theorem test_decode_setRotation :
    decode 0x100000000000000000000000FFFFFFFF#128 = .instr (.setRotation 0xFFFFFFFF#32) := by decide
theorem test_decode_setDisplayMode :
    decode 0x1200000000000000000000000000002A#128 = .instr (.setDisplayMode 42#32) := by decide
theorem test_decode_selectDisplayMode :
    decode 0x130000000000000000000000FFFFFFFF#128 = .instr (.selectDisplayMode 0xFFFFFFFF#32) := by decide
theorem test_decode_accessors : decode 0x11000000000000000000000000000000#128 = .instr .getRotation ∧
    decode 0x14000000000000000000000000000000#128 = .instr .getDisplayMode ∧
    decode 0x15000000000000000000000000000000#128 = .instr .getWidth ∧
    decode 0x16000000000000000000000000000000#128 = .instr .getHeight := by decide
theorem test_decode_show : decode 0x20000000000000000000000000000000#128 = .instr .showBuffer := by decide

/-- The encoder on the same words (R51). -/
theorem test_encode : encode (.writePixel 10 20 1#16) = 0x0100000000000001000000000014000A#128 ∧
    encode (.writeFastVLine 0 (-1) 3 0xFFFF#16) = 0x040000000000FFFF00000003FFFF0000#128 ∧
    encode (.writeLine (-2) 0 2 0 7#16) = 0x0600000000000007000000020000FFFE#128 ∧
    encode (.setRotation 0xFFFFFFFF#32) = 0x100000000000000000000000FFFFFFFF#128 ∧
    encode .showBuffer = 0x20000000000000000000000000000000#128 := by decide

/-- DC1 to DC3, DC10: an unassigned opcode wins over a reserved bit. -/
theorem test_decode_illegal : decode 0x00000000000000000000000000000000#128 = .illegalOpcode 0#8 ∧
    decode 0xFF000000000000000000000000000000#128 = .illegalOpcode 0xFF#8 ∧
    decode 0x09000000000100000000000000000000#128 = .illegalOpcode 9#8 := by decide

/-- DC4 to DC7. -/
theorem test_decode_reserved : decode 0x01000000000000010000000100000000#128 = .reservedNonzero ∧
    decode 0x20000000000000000000000000000001#128 = .reservedNonzero ∧
    decode 0x13000000000100000000000000000001#128 = .reservedNonzero ∧
    decode 0x10000000000000000001000000000001#128 = .reservedNonzero := by decide

theorem test_decodeTableWord :
    decodeTableWord 128 0x06000000000000010003000600000000 = some (.writeLine 0 0 6 3 1#16) ∧
    decodeTableWord 128 0x09000000000000000000000000000000 = none := by decide

/-! ### The assembler (R51; the lines and words of 95_test_vectors.md section 3) -/

theorem test_assemble_lines : assembleLine "WRITE_FAST_VLINE 0, -1, 3, 65535" =
      .command (.writeFastVLine 0 (-1) 3 0xFFFF#16) ∧
    assembleLine "SELECT_DISPLAY_MODE -1" = .command (.selectDisplayMode 0xFFFFFFFF#32) ∧
    assembleLine "SHOW ; commit" = .command .showBuffer ∧ assembleLine "; nothing" = .nothing := by decide

theorem test_assemble_errors : assembleLine "WRITE_PIXEL 32768, 0, 1" = .error ∧
    assembleLine "WRITE_PIXEL 0, 0, -1" = .error ∧ assembleLine "GET_WIDTH 1" = .error ∧
    assembleLine "NOP" = .error := by decide

/-! ### One command on a small state -/

/-- The reset machine at rotation `rot` in mode `mode`. -/
def at_ (rot : BitVec 2) (mode : Value) : State := { State.reset.withRotation rot with mode := mode }

/-- The machine of `at_` under LITERAL. -/
def literalAt (rot : BitVec 2) (mode : Value) : State :=
  { at_ rot mode with cfg := { Config.default with rotVariant := .literal } }

/-- A 16 by 2 panel with visible clear fills (2.3 of the vectors), under policy `p`, in mode `mode`. -/
def smallConfig (p : ModePolicy) : Config := ⟨16, 2, 0xAA#8, 0x55#8, p, .logical⟩
def small (p : ModePolicy) (mode : Value) : State := { State.resetWith (smallConfig p) true true with mode := mode }

/-- The next state, where there is one. -/
def nextOf : Host.Outcome State Fault Refusal → Option State
  | .next t => some t
  | .fault _ => none
  | .refused _ => none

/-- The fault, where there is one. -/
def faultOf : Host.Outcome State Fault Refusal → Option Fault
  | .next _ => none
  | .fault f => some f
  | .refused _ => none

/-- A next state with a property, from evaluating the outcome. -/
theorem exists_next {o : Host.Outcome State Fault Refusal} (P : State → Prop) [DecidablePred P]
    (h : (nextOf o).any (fun t => decide (P t)) = true) : ∃ t, o = .next t ∧ P t := by
  cases o with
  | next t => exact ⟨t, rfl, by simpa [nextOf] using h⟩
  | fault f => cases h
  | refused r => cases h

/-- The response a command gives, where it gives one alone. -/
def answered : Host.Outcome State Fault Refusal → Option Response
  | .next t => t.responses.head?
  | .fault _ => none
  | .refused _ => none

/-- The two buffers after a command. -/
def buffersAfter : Host.Outcome State Fault Refusal → Option (Memory × Memory)
  | .next t => some (t.mb, t.gb)
  | .fault _ => none
  | .refused _ => none

/-- MODE after a command, with its answer. -/
def modeAfter : Host.Outcome State Fault Refusal → Option (Value × List Response)
  | .next t => some (t.mode, t.responses)
  | .fault _ => none
  | .refused _ => none

/-- ROT, LW and LH after a command. -/
def rotationAfter : Host.Outcome State Fault Refusal → Option (Nat × Nat × Nat)
  | .next t => some (t.rot.toNat, t.lw.toNat, t.lh.toNat)
  | .fault _ => none
  | .refused _ => none

/-- WP3 and WP9: rotations 1 and 3, both layouts. -/
theorem test_writePixel : buffersAfter (exec (.writePixel 10 20 1#16) (at_ 1#2 1#32)) = some ([(1097, 0x10#8)], []) ∧
    buffersAfter (exec (.writePixel 10 20 5#16) (at_ 3#2 3#32)) = some ([], [(235610, 0x50#8)]) := by decide
/-- WP10, WP13, WP14: an inert mode, and two clipped pixels. -/
theorem test_writePixel_nothing :
    nextOf (exec (.writePixel 10 20 1#16) (at_ 0#2 0xFFFFFFFF#32)) = some ((at_ 0#2 0xFFFFFFFF#32).respond .ok 0#32) ∧
    nextOf (exec (.writePixel (-1) 0 1#16) (at_ 0#2 1#32)) = some ((at_ 0#2 1#32).respond .ok 0#32) ∧
    nextOf (exec (.writePixel 600 0 1#16) (at_ 1#2 1#32)) = some ((at_ 1#2 1#32).respond .ok 0#32) := by decide
/-- WP2, and WP4 by the other command. -/
theorem test_drawPixel : buffersAfter (exec (.drawPixel 10 20 1#16) (at_ 0#2 1#32)) = some ([(2001, 0x20#8)], []) ∧
    buffersAfter (exec (.drawPixel 10 20 1#16) (at_ 2#2 1#32)) = some ([(57998, 0x04#8)], []) := by decide
/-- P5 step 4, by DRAW_PIXEL: off the panel under LITERAL. -/
theorem test_drawPixel_off_panel :
    nextOf (exec (.drawPixel 0 700 1#16) (literalAt 1#2 1#32)) =
      some ((literalAt 1#2 1#32).respond .physOutOfRange 0x0000FF9B#32) := by decide
/-- FR11. -/
theorem test_writeFastHLine : buffersAfter (exec (.writeFastHLine 0 0 3 1#16) (at_ 1#2 1#32)) =
    some ([(99, 1#8), (199, 1#8), (299, 1#8)], []) := by decide
/-- FR8. -/
theorem test_writeFastHLine_empty :
    nextOf (exec (.writeFastHLine 0 0 0 1#16) (at_ 0#2 1#32)) = some ((at_ 0#2 1#32).respond .ok 0#32) := by decide
/-- FR9. -/
theorem test_writeFastVLine : buffersAfter (exec (.writeFastVLine 2 0 4 1#16) (at_ 0#2 1#32)) =
    some ([(0, 0x20#8), (100, 0x20#8), (200, 0x20#8), (300, 0x20#8)], []) := by decide
/-- P5 step 5: two pixels land, the third is off the panel. -/
theorem test_writeFastVLine_off_panel :
    nextOf (exec (.writeFastVLine 0 598 4 1#16) (literalAt 1#2 1#32)) =
      some (State.respond .physOutOfRange 0x0000FFFF#32 { literalAt 1#2 1#32 with mb := [(0, 0xC0#8)] }) := by decide
/-- FR1. -/
theorem test_writeFillRect : buffersAfter (exec (.writeFillRect 2 3 4 2 1#16) (at_ 0#2 1#32)) =
    some ([(300, 0x3C#8), (400, 0x3C#8)], []) := by decide
/-- FR5 and FR6: clipped at the corner; no wrap past 32767. -/
theorem test_writeFillRect_clipped :
    buffersAfter (exec (.writeFillRect 798 599 5 5 1#16) (at_ 0#2 1#32)) = some ([(59999, 0x03#8)], []) ∧
    buffersAfter (exec (.writeFillRect 32767 0 2 1 1#16) (at_ 0#2 1#32)) = some ([], []) := by decide
/-- P4 step 3: clipped at the left edge, rotation 3, high nibbles. -/
theorem test_writeLine : buffersAfter (exec (.writeLine (-2) 0 2 0 7#16) (at_ 3#2 3#32)) =
    some ([], [(238800, 0x70#8), (239200, 0x70#8), (239600, 0x70#8)]) := by decide
/-- LN3 to LN6, LN10, LN13. -/
theorem test_linePixels :
    linePixels 0 0 6 3 = [(0, 0), (1, 0), (2, 1), (3, 1), (4, 2), (5, 2), (6, 3)] ∧
    linePixels 6 3 0 0 = linePixels 0 0 6 3 ∧
    linePixels 0 0 2 5 = [(0, 0), (0, 1), (1, 2), (1, 3), (2, 4), (2, 5)] ∧
    linePixels 0 3 3 0 = [(0, 3), (1, 2), (2, 1), (3, 0)] ∧ linePixels 0 1 3 0 = [(0, 1), (1, 1), (2, 0), (3, 0)] ∧
    linePixels 0 0 (-3) 2 = [(-3, 2), (-2, 1), (-1, 1), (0, 0)] := by decide
/-- SH1. -/
theorem test_startWrite : nextOf (exec .startWrite (at_ 1#2 3#32)) = some ((at_ 1#2 3#32).respond .ok 0#32) := by decide
/-- SH2. -/
theorem test_endWrite : nextOf (exec .endWrite (at_ 1#2 3#32)) = some ((at_ 1#2 3#32).respond .ok 0#32) := by decide
/-- RT6 to RT8. -/
theorem test_setRotation : rotationAfter (exec (.setRotation 5#32) State.reset) = some (1, 600, 800) ∧
    rotationAfter (exec (.setRotation 0xFFFFFFFF#32) State.reset) = some (3, 600, 800) ∧
    rotationAfter (exec (.setRotation 0x7FFFFFFE#32) (at_ 1#2 1#32)) = some (2, 800, 600) := by decide
theorem test_getRotation : answered (exec .getRotation (at_ 3#2 1#32)) = some ⟨.ok, 3#32⟩ := by decide
/-- MS7: assigned, not cleared. -/
theorem test_setDisplayMode : nextOf (exec (.setDisplayMode 1#32) (small .permissive 7#32)) =
    some ((small .permissive 1#32).respond .ok 0#32) := by decide
/-- MS11. -/
theorem test_setDisplayMode_strict : nextOf (exec (.setDisplayMode 0#32) (small .strict 0xFFFFFFFF#32)) =
    some ((small .strict 0xFFFFFFFF#32).respond .invalidMode 0#32) := by decide
/-- MS2 on a panel of four Monochrome bytes. -/
theorem test_selectDisplayMode : buffersAfter (exec (.selectDisplayMode 1#32) (small .permissive 0xFFFFFFFF#32)) =
    some ([(0, 0xAA#8), (1, 0xAA#8), (2, 0xAA#8), (3, 0xAA#8)], []) := by decide
/-- MS5 and MS10: any other mode clears the Grayscale buffer; the strict policy rejects 2. -/
theorem test_selectDisplayMode_other :
    (buffersAfter (exec (.selectDisplayMode 0xFFFFFFFF#32) (small .permissive 1#32))).map
      (fun b => (b.1, b.2.length, b.2.all fun cell => decide (cell.2 = 0x55#8))) = some ([], 16, true) ∧
    modeAfter (exec (.selectDisplayMode 2#32) (small .strict 0xFFFFFFFF#32)) =
      some (0xFFFFFFFF#32, [⟨.invalidMode, 2#32⟩]) := by decide
/-- MS13 and MS14. -/
theorem test_getDisplayMode : answered (exec .getDisplayMode (at_ 0#2 42#32)) = some ⟨.ok, 0x2A#32⟩ ∧
    answered (exec .getDisplayMode State.reset) = some ⟨.ok, 0xFFFFFFFF#32⟩ := by decide
/-- P1 steps 7 and 8. -/
theorem test_getWidth : answered (exec .getWidth (at_ 1#2 1#32)) = some ⟨.ok, 0x258#32⟩ := by decide
theorem test_getHeight : answered (exec .getHeight (at_ 1#2 1#32)) = some ⟨.ok, 0x320#32⟩ := by decide
/-- SH3 and SH6 on the small panel: the buffer's bytes, in increasing index. -/
theorem test_show :
    nextOf (exec .showBuffer { small .permissive 1#32 with mb := [(1, 0x80#8)] }) =
      some (State.respond .ok 0#32 { small .permissive 1#32 with
        mb := [(1, 0x80#8)], commits := [⟨.mono, 4, [(1, 0x80#8)]⟩] }) ∧
    CommitEvent.bytes ⟨.mono, 4, [(1, 0x80#8)]⟩ = [0#8, 0x80#8, 0#8, 0#8] ∧
    nextOf (exec .showBuffer (small .permissive 42#32)) =
      some (State.respond .ok 0#32 { small .permissive 42#32 with commits := [⟨.gray, 16, []⟩] }) := by decide

/-! ### The packers on a byte -/

/-- MP1, MP2, MP4, MP6, MP8. -/
theorem test_packMono : packMono 10 1#16 0x00#8 = 0x20#8 ∧ packMono 10 0#16 0xFF#8 = 0xDF#8 ∧
    packMono 7 0x8000#16 0x00#8 = 0x01#8 ∧ packMono 0 0#16 0x7F#8 = 0x7F#8 ∧ packMono 3 0xFFFF#16 0#8 = 0x10#8 := by
  decide
/-- GP2, GP3, GP5, GP6, GP8, GP9. -/
theorem test_packGray : packGray 11 14#16 0x50#8 = 0x56#8 ∧ packGray 10 8#16 0x56#8 = 0x06#8 ∧
    packGray 11 7#16 0xFF#8 = 0xF7#8 ∧ packGray 0 8#16 0xAB#8 = 0x0B#8 ∧ packGray 0 7#16 0x88#8 = 0x78#8 ∧
    packGray 1 7#16 0x88#8 = 0x87#8 := by decide
/-- XL7, XL13, XL18: the two readings of the translator. -/
theorem test_translator : (at_ 1#2 1#32).xlate 599 799 = (0, 599) ∧ (at_ 1#2 1#32).xlateLit 599 799 = (-200, 599) ∧
    (at_ 2#2 1#32).xlate 10 20 = (789, 579) ∧ (at_ 3#2 1#32).xlate 10 20 = (20, 589) ∧
    (at_ 3#2 1#32).xlateLit 10 20 = (20, 789) := by decide

/-! ### The step -/

/-- DC3, DC5 and P8 step 2, each from its word. -/
theorem test_step_rejections :
    nextOf (step (State.reset.present 0xFF000000000000000000000000000000#128)) =
      some (State.reset.respond .illegalOpcode 0xFF#32) ∧
    nextOf (step (State.reset.present 0x20000000000000000000000000000001#128)) =
      some (State.reset.respond .reservedNonzero 0#32) ∧
    nextOf (step ((State.resetWith Config.default true false).present 0x15000000000000000000000000000000#128)) =
      some ((State.resetWith Config.default true false).respond .notInitialised 0#32) := by decide

theorem test_step_first : nextOf (step (State.reset.withFetchWord 128 0x10000000000000000000000000000001)) =
    some ((at_ 1#2 0xFFFFFFFF#32).respond .ok 0#32) := by decide

theorem test_step_hangs : nextOf (step (State.present 0x20000000000000000000000000000000#128 { State.reset with pdServes := some 0 })) =
      some { State.reset with pdServes := some 0, busy := true } ∧
    faultOf (step { State.reset with busy := true }) = some .panelNeverCompletes := by decide

/-! ### The hypotheses of the statements can be met -/

/-- The word of SHOW. -/
def showWord : CommandWord := 0x20000000000000000000000000000000#128

theorem witness_DecodeOfEncodeIsTheInstruction :
    Instr.wellFormed (.writeLine (-32768) 32767 32767 (-32768) 0xFFFF#16) = true := by decide

theorem witness_EncodeOfDecodeIsTheWord : decode showWord = .instr .showBuffer := by decide

/-- Both ends of each of the four ranges of unassigned opcodes. -/
theorem witness_UnassignedOpcodeIsAnsweredIllegal :
    ∀ opc ∈ [0x00#8, 0x09#8, 0x0F#8, 0x17#8, 0x1F#8, 0x21#8, 0xFF#8],
      let cw : CommandWord := opc ++ 0#120
      (State.reset.present cw).busy = false ∧ (State.reset.present cw).init = .ready ∧
      (State.reset.present cw).port = [cw] ∧
      ((fieldOpc cw).toNat = 0 ∨ (0x09 ≤ (fieldOpc cw).toNat ∧ (fieldOpc cw).toNat ≤ 0x0F) ∨
        (0x17 ≤ (fieldOpc cw).toNat ∧ (fieldOpc cw).toNat ≤ 0x1F) ∨ 0x21 ≤ (fieldOpc cw).toNat) := by decide

theorem witness_ReservedBitIsAnsweredReserved :
    (State.reset.present 0x20000000000000000000000000000001#128).busy = false ∧
    (State.reset.present 0x20000000000000000000000000000001#128).init = .ready ∧
    (State.reset.present 0x20000000000000000000000000000001#128).port = [0x20000000000000000000000000000001#128] ∧
    fieldOpc 0x20000000000000000000000000000001#128 = Opcode.showBuffer.code ∧
    ¬ reservedFieldsZero 0x20000000000000000000000000000001#128 .showBuffer := by
  unfold reservedFieldsZero; decide

theorem witness_AssembledCommandsAreWellFormed :
    assembleLine "SET_DISPLAY_MODE GRAY" = .command (.setDisplayMode 3#32) := by decide

/-- Operands at the ends of their ranges, in decimal, in hexadecimal and as the three symbols. -/
theorem witness_AssembledLineIsItsCommand :
    (AsmOperand.dec (-32768)).meansCoord (-32768) ∧ (AsmOperand.dec 32767).meansCoord 32767 ∧
    (AsmOperand.hex 0xFFFF).meansCoord (-1) ∧ (AsmOperand.hex 0x7FFF).meansCoord 32767 ∧
    (AsmOperand.dec 0).meansColour 0#16 ∧ (AsmOperand.hex 65535).meansColour 0xFFFF#16 ∧
    (AsmOperand.dec (-2 ^ 31)).meansValue 0x80000000#32 ∧ (AsmOperand.dec (2 ^ 32 - 1)).meansValue 0xFFFFFFFF#32 ∧
    (AsmOperand.hex 0xFFFFFFFF).meansValue 0xFFFFFFFF#32 ∧ (AsmOperand.dec (-1)).meansMode 0xFFFFFFFF#32 ∧
    (AsmOperand.mode (-1)).meansMode 0xFFFFFFFF#32 ∧ (AsmOperand.mode 1).meansMode 1#32 ∧
    (AsmOperand.mode 3).meansMode 3#32 := by
  simp only [AsmOperand.meansCoord, AsmOperand.meansColour, AsmOperand.meansMode, AsmOperand.meansValue]
  decide

/-- Numbers one past the ends of their ranges. -/
theorem witness_OutOfRangeOperandIsAnAssemblyError :
    (AsmOperand.dec (-32769)).outsideCoord ∧ (AsmOperand.dec 32768).outsideCoord ∧
    (AsmOperand.hex 0x10000).outsideCoord ∧ (AsmOperand.dec (-1)).outsideColour ∧
    (AsmOperand.dec 65536).outsideColour ∧ (AsmOperand.hex 65536).outsideColour ∧
    (AsmOperand.dec (-2 ^ 31 - 1)).outsideValue ∧ (AsmOperand.dec (2 ^ 32)).outsideValue ∧
    (AsmOperand.hex (2 ^ 32)).outsideValue := by
  simp only [AsmOperand.outsideCoord, AsmOperand.outsideColour, AsmOperand.outsideValue]
  decide

/-- The smallest and the largest panel that R5 allows, and the default. -/
theorem witness_legal : Config.default.legal ∧ (Config.mk 8 1 0#8 0#8 .strict .literal).legal ∧
    (Config.mk 32760 32767 0#8 0#8 .permissive .logical).legal := by decide

/-- A state of the invariant whose step answers next, and whose command is answered (StepKeepsTheInvariant,
EveryCommandIsAnsweredOnce, NoCommandStopsUnderTheInvariant, NoStepWritesParametersOrInit, PresentedCommandIsHeld). -/
theorem witness_step : ∃ t : State, (State.reset.present showWord).inv ∧ (State.reset.present showWord).busy = false ∧
    (State.reset.present showWord).driverServes ∧ (State.reset.present showWord).port = [showWord] ∧
    (State.reset.present showWord).port ≠ [] ∧ step (State.reset.present showWord) = .next t :=
  ⟨_, by decide, by decide, by decide, by decide, by decide, rfl⟩

theorem witness_StepRunsTheDecodedCommand : (State.reset.present showWord).busy = false ∧
    (State.reset.present showWord).init = .ready ∧ (State.reset.present showWord).port = [showWord] ∧
    decode showWord = .instr .showBuffer := by decide

theorem witness_IdleMachineWaits : State.reset.busy = false ∧ State.reset.port = [] := by decide

theorem witness_FailedMachineAnswersNotInitialised : ∃ t : State,
    ((State.resetWith Config.default true false).present showWord).busy = false ∧
    ((State.resetWith Config.default true false).present showWord).init = .failed ∧
    ((State.resetWith Config.default true false).present showWord).port = [showWord] ∧
    step ((State.resetWith Config.default true false).present showWord) = .next t :=
  ⟨_, by decide, by decide, by decide, rfl⟩

theorem witness_RejectedCommandHasNoEffect : ∃ t : State, (State.reset.present 0#128).busy = false ∧
    (State.reset.present 0#128).port = [0#128] ∧ step (State.reset.present 0#128) = .next t ∧
    t.responses = (State.reset.present 0#128).responses ++ [⟨.illegalOpcode, 0#32⟩] ∧
    Status.illegalOpcode ≠ .ok ∧ Status.illegalOpcode ≠ .physOutOfRange :=
  ⟨_, by decide, by decide, rfl, by decide, by decide, by decide⟩

/-- OnlySetRotationWritesRotation, OnlyModeCommandsWriteMode, OnlyShowCommits. -/
theorem witness_exec_next : ∃ t u : State, (∀ v, Instr.showBuffer ≠ .setRotation v) ∧
    exec .showBuffer State.reset = .next t ∧ exec (.setDisplayMode 3#32) State.reset = .next u ∧ u.mode ≠ (-1 : Value) :=
  ⟨_, _, by simp, rfl, rfl, by decide⟩

/-- Each of the four ways to a buffer change. -/
theorem witness_BuffersChangeOnlyAsListed :
    (∃ t, exec (.writePixel 0 0 1#16) (small .strict 1#32) = .next t ∧ t.mb ≠ (small .strict 1#32).mb) ∧
    (∃ t, exec (.selectDisplayMode 1#32) (small .strict 3#32) = .next t ∧ t.mb ≠ (small .strict 3#32).mb) ∧
    (∃ t, exec (.writePixel 0 0 1#16) (small .strict 3#32) = .next t ∧ t.gb ≠ (small .strict 3#32).gb) ∧
    (∃ t, exec (.selectDisplayMode 3#32) (small .strict 1#32) = .next t ∧ t.gb ≠ (small .strict 1#32).gb) :=
  ⟨exists_next _ (by decide), exists_next _ (by decide), exists_next _ (by decide), exists_next _ (by decide)⟩

/-- Ready machines of the invariant at every rotation (SetRotationStoresRotationAndDimensions,
AccessorsReadTheirRegisters, GetRotationReadsTheMaskedValue, BracketsChangeNothing). -/
theorem witness_rotations : ∀ r ∈ [0#2, 1#2, 2#2, 3#2],
    (at_ r 1#32).init = .ready ∧ (at_ r 1#32).cfg.legal ∧ (at_ r 1#32).dimsAgree ∧ (at_ r 1#32).inv := by decide

/-- A permissive policy; under the strict one the three modes, and one it rejects. -/
theorem witness_SetDisplayModeAssignsWithoutClearing :
    (small .permissive 0#32).init = .ready ∧ (small .permissive 0#32).cfg.modePolicy = .permissive ∧
    (small .strict 3#32).init = .ready ∧ (small .strict 3#32).cfg.modePolicy = .strict ∧
    BitVec.toInt 0xFFFFFFFF#32 = -1 ∧ BitVec.toInt 1#32 = 1 ∧ BitVec.toInt 3#32 = 3 ∧
    (BitVec.toInt 2#32 ≠ -1 ∧ BitVec.toInt 2#32 ≠ 1 ∧ BitVec.toInt 2#32 ≠ 3) := by decide

/-- A select of the current mode, of mode 1 and of mode -1 from mode 3, and of a rejected mode. -/
theorem witness_SelectDisplayModeClearsTheNewBuffer : (small .strict 3#32).init = .ready ∧
    (small .strict 3#32).driverServes ∧ (small .strict 3#32).mode = 3#32 ∧
    (1#32 ≠ (small .strict 3#32).mode ∧ BitVec.toInt 1#32 = 1) ∧
    (0xFFFFFFFF#32 ≠ (small .strict 3#32).mode ∧ BitVec.toInt 0xFFFFFFFF#32 = -1) ∧
    ¬ ((small .strict 3#32).cfg.modePolicy = .permissive ∨ BitVec.toInt 2#32 = -1 ∨ BitVec.toInt 2#32 = 1 ∨
      BitVec.toInt 2#32 = 3) := by decide

/-- BC1 to BC4, one on each side. -/
theorem witness_OutOfBoundsPixelIsDiscarded : State.reset.init = .ready ∧ State.reset.lw.toNat = 800 ∧
    State.reset.lh.toNat = 600 ∧ State.reset.inBounds (-1) 0 = false ∧ State.reset.inBounds 0 (-1) = false ∧
    State.reset.inBounds 800 0 = false ∧ State.reset.inBounds 0 600 = false := by decide

/-- What the two statements ask of a pixel, at a corner of the rotated panel in mode `m`. -/
abbrev cornerMeets (m : Value) : Prop := (at_ 1#2 m).inv ∧ (at_ 1#2 m).init = .ready ∧
    (at_ 1#2 m).inBounds 599 799 = true ∧ (at_ 1#2 m).fallsOff 599 799 = false

/-- Each of the modes 1, 3 and 0 (WrittenPixelReadsBack, PixelCommandChangesOnlyItsPixel). -/
theorem witness_pixel : cornerMeets 1#32 ∧ cornerMeets 3#32 ∧ cornerMeets 0#32 := ⟨by decide, by decide, by decide⟩

/-- XL9 and XL16. -/
theorem witness_PixelOffThePanelIsAnsweredOutOfRange :
    (literalAt 1#2 1#32).init = .ready ∧ (literalAt 1#2 1#32).cfg.rotVariant = .literal ∧
    (literalAt 1#2 1#32).inBounds 0 799 = true ∧ ((literalAt 1#2 1#32).xlateLit 0 799).1 < 0 ∧
    (literalAt 3#2 1#32).inBounds 0 0 = true ∧ ((literalAt 3#2 1#32).cfg.ph : Int) ≤ ((literalAt 3#2 1#32).xlateLit 0 0).2 := by
  decide

/-- Two pixels with one image, an in-bounds pixel and a panel pixel at the far corner. -/
theorem witness_TranslatorIsABijectionOntoThePanel : (at_ 1#2 1#32).cfg.legal ∧ (at_ 1#2 1#32).dimsAgree ∧
    (at_ 1#2 1#32).inBounds 599 799 = true ∧ (at_ 1#2 1#32).xlate 5 6 = (at_ 1#2 1#32).xlate 5 6 ∧
    799 < (at_ 1#2 1#32).cfg.pw ∧ 599 < (at_ 1#2 1#32).cfg.ph := by decide

theorem witness_BoundsCheckCommutesWithTranslation : (at_ 3#2 1#32).cfg.legal ∧ (at_ 3#2 1#32).dimsAgree := by decide

/-- An 8 by 8 panel at rotation 1 under LITERAL. -/
def square : State := (State.resetWith ⟨8, 8, 0#8, 0#8, .permissive, .literal⟩ true true).withRotation 1#2

theorem witness_VariantsAgreeOnASquarePanel : square.cfg.legal ∧ square.dimsAgree ∧ square.cfg.pw = square.cfg.ph ∧
    square.inBounds 7 7 = true := by decide

/-- An empty rectangle on either side, and a smallest one with its one pixel. -/
theorem witness_RectanglePixelsAreRowMajor : ((0 : Int) ≤ 0 ∨ (1 : Int) ≤ 0) ∧ ((1 : Int) ≤ 0 ∨ (0 : Int) ≤ 0) ∧
    ((0 : Int) < 1 ∧ (0 : Int) < 1 ∧ ((0 : Nat) : Int) < 1) ∧ rectPixels 5 6 1 1 = [(5, 6)] ∧
    State.reset.init = .ready := by decide

/-- A line that is not steep and the diagonal (LN3, LN2), and a steep one (LN5). -/
theorem witness_LinePixelsStayWithinHalfAPixel : ((0 : Int) < 6 ∧ |(3 : Int) - 0| ≤ 6 - 0 ∧
      ((5 : Int), (2 : Int)) ∈ linePixels 0 0 6 3) ∧
    (|(4 : Int) - 0| ≤ 4 - 0 ∧ ((4 : Int), (4 : Int)) ∈ linePixels 0 0 4 4) ∧
    ((0 : Int) < 5 ∧ |(2 : Int) - 0| < 5 - 0 ∧ ((1 : Int), (3 : Int)) ∈ linePixels 0 0 2 5) := by decide

/-- The first and the last step of LN6, which falls, and of LN5 and LN8, which are steep. -/
theorem witness_LinePixelsFollowTheErrorAccumulator :
    ((0 : Int) < 3 ∧ |(0 : Int) - 3| ≤ 3 - 0 ∧ ((0 : Nat) : Int) ≤ 3 - 0 ∧ ((3 : Nat) : Int) ≤ 3 - 0) ∧
    ((0 : Int) < 5 ∧ |(2 : Int) - 0| < 5 - 0 ∧ ((0 : Nat) : Int) ≤ 5 - 0 ∧ ((5 : Nat) : Int) ≤ 5 - 0) ∧
    ((0 : Int) < 3 ∧ |(2 : Int) - 2| < 3 - 0) := by decide

/-- RectangleCommandsPaintExactly under either reading: each of the three commands on a state of the invariant, and
under LITERAL a rectangle whose pixel lands. -/
theorem witness_RectangleCommandsPaintExactly :
    ((at_ 1#2 1#32).inv ∧ (at_ 1#2 1#32).init = .ready ∧ (at_ 1#2 1#32).cfg.rotVariant = .logical) ∧
    ((literalAt 1#2 1#32).inv ∧ (literalAt 1#2 1#32).init = .ready ∧
      ∀ px py : Int, 0 ≤ px → px < 0 + 1 → 599 ≤ py → py < 599 + 1 → (literalAt 1#2 1#32).lands (px, py)) ∧
    ((Instr.writeFillRect 0 599 1 1 1#16 = .writeFillRect 0 599 1 1 1#16 ∧ (1 : Int) = 1 ∧ (1 : Int) = 1) ∧
      (Instr.writeFastHLine 0 599 1 1#16 = .writeFastHLine 0 599 1 1#16 ∧ (1 : Int) = 1 ∧ (1 : Int) = 1) ∧
      (Instr.writeFastVLine 0 599 1 1#16 = .writeFastVLine 0 599 1 1#16 ∧ (1 : Int) = 1 ∧ (1 : Int) = 1)) := by
  refine ⟨by decide, ⟨by decide, by decide, fun px py h1 h2 h3 h4 => ?_⟩, by decide⟩
  obtain rfl : px = 0 := by omega
  obtain rfl : py = 599 := by omega
  decide

theorem witness_LineAndPixelCommandsPaintExactly : (literalAt 1#2 3#32).inv ∧ (literalAt 1#2 3#32).init = .ready ∧
    (∀ p ∈ linePixels 0 0 6 3, (literalAt 1#2 3#32).lands p) ∧ (∀ p ∈ [((0 : Int), (599 : Int))], (literalAt 1#2 3#32).lands p) ∧
    (at_ 1#2 3#32).inv ∧ (at_ 1#2 3#32).init = .ready ∧ (at_ 1#2 3#32).cfg.rotVariant = .logical := by decide

theorem witness_PixelOrderDoesNotMatter : (at_ 0#2 1#32).inv ∧ (at_ 0#2 1#32).cfg.rotVariant = .logical ∧
    [((0 : Int), (0 : Int)), (1, 0)].Perm [(1, 0), (0, 0)] := by decide

/-- P5 step 5, and the other three commands at a first pixel off the panel. -/
theorem witness_PrimitiveStopsAtTheFirstPixelOffThePanel :
    (literalAt 1#2 1#32).inv ∧ (literalAt 1#2 1#32).init = .ready ∧
    drawnPixels (.writeFastVLine 0 598 4 1#16) = some ([(0, 598), (0, 599)] ++ (0, 600) :: [(0, 601)]) ∧
    (∀ q ∈ [((0 : Int), (598 : Int)), (0, 599)], (literalAt 1#2 1#32).lands q) ∧
    ¬ (literalAt 1#2 1#32).lands (0, 600) ∧
    drawnPixels (.writeFastHLine 0 600 1 1#16) = some ([] ++ (0, 600) :: []) ∧
    drawnPixels (.writeFillRect 0 600 1 1 1#16) = some ([] ++ (0, 600) :: []) ∧
    drawnPixels (.writeLine 0 600 0 600 1#16) = some ([] ++ (0, 600) :: []) := by decide

/-- A Monochrome mode, and two others. -/
theorem witness_ShowCommitsTheActiveBuffer : (at_ 0#2 1#32).init = .ready ∧ (at_ 0#2 1#32).driverServes ∧
    (at_ 0#2 1#32).mode.toInt = 1 ∧ (at_ 0#2 3#32).mode.toInt ≠ 1 ∧ (at_ 0#2 0xFFFFFFFF#32).mode.toInt ≠ 1 ∧
    0 < (at_ 0#2 1#32).cfg.msize ∧ 239999 < (at_ 0#2 3#32).cfg.gsize := by decide

theorem witness_TwoShowsCommitTheSameBytes : State.reset.init = .ready ∧ State.reset.pdServes = none ∧
    ({ State.reset with pdServes := some 2 } : State).pdServes = some (0 + 2) := by decide

theorem witness_SilentDriverLeavesTheMachineBusy :
    ({ State.reset with pdServes := some 0 } : State).init = .ready ∧
    ({ State.reset with pdServes := some 0 } : State).pdServes = some 0 ∧ 1#32 ≠ State.reset.mode ∧
    State.reset.cfg.modePolicy = .permissive ∧ ({ State.reset with busy := true } : State).busy = true := by decide

/-- An idle machine of either INIT with a last byte in each buffer, and a busy one. -/
theorem witness_ObservationReadsTheState : State.reset.busy = false ∧ State.reset.init = .ready ∧
    59999 < State.reset.cfg.msize ∧ 239999 < State.reset.cfg.gsize ∧
    (State.resetWith Config.default false true).busy = false ∧
    (State.resetWith Config.default false true).init = .failed ∧
    ({ State.reset with busy := true } : State).busy = true := by decide

theorem witness_BufferReadsWhatWasWritten : Memory.wf 4 [(1, 0x80#8)] = true ∧ 3 < 4 := by decide

/-- Two equal buffers put together in a different order, and a third that differs. -/
theorem witness_EqualBytesAreEqualBuffers :
    Memory.wf 4 (Memory.write (Memory.write [] 1 1#8) 0 2#8) = true ∧
    Memory.wf 4 (Memory.write (Memory.write [] 0 2#8) 1 1#8) = true ∧
    Memory.bytes 4 (Memory.write (Memory.write [] 1 1#8) 0 2#8) =
      Memory.bytes 4 (Memory.write (Memory.write [] 0 2#8) 1 1#8) := by decide

end Sys2Proof.Tests
end

/-! What one command, and one step, can change of the state beside the ports, said once; and the statements on
the state (10_state.md) that follow from it. -/

namespace Sys2Proof.Machine

/-! ### Changes of the ports alone -/

/-- `t` is `s` but for busy, the presented commands and the responses given (R23, R36, R50). -/
def State.portsOnly (s t : State) : Prop :=
  ∃ busy port responses, t = { s with busy := busy, port := port, responses := responses }

theorem State.portsOnly.refl (s : State) : s.portsOnly s := ⟨_, _, _, rfl⟩

theorem State.portsOnly.respond (s : State) (st : Status) (d : Value) : s.portsOnly (s.respond st d) := ⟨_, _, _, rfl⟩

theorem State.portsOnly.accepted (s : State) (rest : List CommandWord) :
    s.portsOnly { s with port := rest, busy := true } :=
  ⟨_, _, _, rfl⟩

theorem State.portsOnly.trans {s t u : State} (h : s.portsOnly t) (h' : t.portsOnly u) : s.portsOnly u := by
  obtain ⟨_, _, _, rfl⟩ := h
  obtain ⟨_, _, _, rfl⟩ := h'
  exact ⟨_, _, _, rfl⟩

/-- The end of a command changes only the ports of the state that its body carried. -/
theorem Effect.finish_carried {e : Effect} {t : State} (h : e.finish = .next t) :
    ∃ u, e.carried = some u ∧ u.portsOnly t := by
  rcases Effect.finish_next h with ⟨u, rfl, rfl⟩ | ⟨st, d, u, rfl, rfl⟩ | ⟨u, rfl, rfl⟩
  · exact ⟨u, rfl, State.portsOnly.respond u _ _⟩
  · exact ⟨u, rfl, State.portsOnly.respond u _ _⟩
  · exact ⟨u, rfl, _, _, _, rfl⟩

/-! ### What a command changes beside the ports -/

/-- The states that command `i` can leave of `s`, the ports aside: `s` itself, or `s` with the one change that is `i`'s
own. That no other is left is `exec_change`. -/
inductive CommandChange (i : Instr) (s : State) : State → Prop where
  /-- Nothing: an accessor, a bracket, a refused or idempotent mode, a driver that is silent at a SHOW. -/
  | unchanged : CommandChange i s s
  /-- The pixels of a drawing command, up to the first that raises (R77). -/
  | drawn {c : Colour} {ps : List Pixel} {u : State} (hi : drawnPixels i = some ps)
      (hu : (expand c ps s).carried = some u) : CommandChange i s u
  /-- SET_ROTATION's three registers (R55). -/
  | rotated {v : Value} (hi : i = .setRotation v) : CommandChange i s (s.withRotation (maskedRotation v))
  /-- MODE alone: SET_DISPLAY_MODE, or SELECT_DISPLAY_MODE whose clear never completes (R58, R59, R116). -/
  | modeSet {m : Value} (hi : i = .setDisplayMode m ∨ i = .selectDisplayMode m)
      (hm : validMode s.cfg.modePolicy m = true) : CommandChange i s (s.withMode m)
  /-- MODE and the new mode's buffer, cleared (R33, R59). -/
  | modeSelected {m : Value} (hi : i = .selectDisplayMode m) (hm : validMode s.cfg.modePolicy m = true)
      (hne : m ≠ s.mode) : CommandChange i s
        (State.withBuffer { s.withMode m with pdServes := servesLeft s.pdServes }
          (Memory.filled (s.bufferSize (bufferOfMode m)) (Config.clearFill s.cfg (bufferOfMode m))) (bufferOfMode m))
  /-- SHOW's event (R87, R88). -/
  | committed (hi : i = .showBuffer) : CommandChange i s
        { s with pdServes := servesLeft s.pdServes,
                 commits := s.commits ++ [s.commitEvent (bufferOfMode s.mode)] }

theorem assignMode_change {m : Value} {s u : State} (h : (assignMode m s).carried = some u) :
    CommandChange (.setDisplayMode m) s u := by
  rcases assignMode_cases m s with ⟨hm, e⟩ | ⟨-, e⟩ <;> rw [e] at h <;> cases h
  · exact .modeSet (.inl rfl) hm
  · exact .unchanged

theorem selectMode_change {m : Value} {s u : State} (h : (selectMode m s).carried = some u) :
    CommandChange (.selectDisplayMode m) s u := by
  rcases selectMode_cases m s with ⟨-, -, e⟩ | ⟨hm, hne, e⟩ | ⟨-, e⟩ <;> rw [e] at h
  · cases h
    exact .unchanged
  · rcases clearBuffer_cases (bufferOfMode m) (s.withMode m) with ⟨-, e'⟩ | ⟨-, e'⟩ <;> rw [e'] at h <;> cases h
    · exact .modeSelected rfl hm hne
    · exact .modeSet (.inr rfl) hm
  · cases h
    exact .unchanged

theorem commitBuffer_change {s u : State} (h : (commitBuffer (bufferOfMode s.mode) s).carried = some u) :
    CommandChange .showBuffer s u := by
  rcases commitBuffer_cases (bufferOfMode s.mode) s with ⟨-, e⟩ | ⟨-, e⟩ <;> rw [e] at h <;> cases h
  · exact .committed rfl
  · exact .unchanged

/-- A next state of `exec` is one of the command's own changes, and an answer. -/
theorem exec_change {i : Instr} {s t : State} (h : exec i s = .next t) : ∃ u, CommandChange i s u ∧ u.portsOnly t := by
  have answered (st : Status) (d : Value) : ∃ u, CommandChange i s u ∧ u.portsOnly (s.respond st d) :=
    ⟨s, .unchanged, State.portsOnly.respond s st d⟩
  rcases exec_next h with ⟨-, rfl⟩ | ⟨-, ⟨c, ps, hi, hf⟩ | ⟨-, rfl⟩ | ⟨v, hi, rfl⟩ | ⟨-, rfl⟩ | ⟨m, rfl, hf⟩ |
    ⟨m, rfl, hf⟩ | ⟨-, rfl⟩ | ⟨-, rfl⟩ | ⟨-, rfl⟩ | ⟨rfl, hf⟩⟩
  · exact answered _ _
  · exact (Effect.finish_carried hf).imp fun _ ⟨hu, ht⟩ => ⟨.drawn hi hu, ht⟩
  · exact answered _ _
  · exact ⟨_, .rotated hi, State.portsOnly.respond _ _ _⟩
  · exact answered _ _
  · exact (Effect.finish_carried hf).imp fun _ ⟨hu, ht⟩ => ⟨assignMode_change hu, ht⟩
  · exact (Effect.finish_carried hf).imp fun _ ⟨hu, ht⟩ => ⟨selectMode_change hu, ht⟩
  · exact answered _ _
  · exact answered _ _
  · exact answered _ _
  · exact (Effect.finish_carried hf).imp fun _ ⟨hu, ht⟩ => ⟨commitBuffer_change hu, ht⟩

/-- A next state of a step: a wait or a rejected word changes the ports alone; otherwise the step is a command, run with
its word taken from the port (R49, R109). -/
theorem step_change {s t : State} (h : step s = .next t) :
    s.portsOnly t ∨ ∃ (rest : List CommandWord) (i : Instr), exec i { s with port := rest, busy := true } = .next t := by
  rcases step_cases s with ⟨-, e⟩ | ⟨-, -, e⟩ | ⟨cw, rest, -, -, ⟨st, d, -, e⟩ | ⟨i, -, e⟩⟩ <;> rw [e] at h
  · cases h
  · cases h
    exact .inl (State.portsOnly.refl s)
  · cases h
    exact .inl ((State.portsOnly.accepted s rest).trans (State.portsOnly.respond _ st d))
  · exact .inr ⟨rest, i, h⟩

/-! ### What each change leaves as it was -/

/-- Drawing leaves every register (R74, R77). -/
theorem expand_registers {c : Colour} {ps : List Pixel} {s t : State} (h : (expand c ps s).carried = some t) :
    t.cfg = s.cfg ∧ t.init = s.init ∧ t.rot = s.rot ∧ t.lw = s.lw ∧ t.lh = s.lh ∧ t.mode = s.mode := by
  obtain ⟨e, -, -⟩ := expand_drawnTo h
  rw [e]
  exact ⟨rfl, rfl, rfl, rfl, rfl, rfl⟩

theorem CommandChange.cfg_init {i : Instr} {s u : State} (h : CommandChange i s u) :
    u.cfg = s.cfg ∧ u.init = s.init := by
  cases h with
  | drawn hi hu =>
    obtain ⟨hcfg, hinit, -⟩ := expand_registers hu
    exact ⟨hcfg, hinit⟩
  | unchanged | rotated | modeSet | modeSelected | committed => simp

theorem CommandChange.rotation {i : Instr} {s u : State} (h : CommandChange i s u) (hne : ∀ v, i ≠ .setRotation v) :
    u.rot = s.rot ∧ u.lw = s.lw ∧ u.lh = s.lh := by
  cases h with
  | drawn hi hu =>
    obtain ⟨-, -, hrot, hlw, hlh, -⟩ := expand_registers hu
    exact ⟨hrot, hlw, hlh⟩
  | rotated hi => exact absurd hi (hne _)
  | unchanged | modeSet | modeSelected | committed => simp

theorem CommandChange.mode {i : Instr} {s u : State} (h : CommandChange i s u) :
    u.mode = s.mode ∨ i = .setDisplayMode u.mode ∨ i = .selectDisplayMode u.mode := by
  cases h with
  | drawn hi hu =>
    obtain ⟨-, -, -, -, -, hmode⟩ := expand_registers hu
    exact .inl hmode
  | modeSet hi => exact .inr hi
  | modeSelected hi => exact .inr (.inr (by simpa using hi))
  | unchanged | rotated | committed => exact .inl rfl

/-! ### Each change keeps the invariant -/

/-- The ports are no part of the invariant. -/
theorem State.portsOnly.inv {s t : State} (h : s.portsOnly t) (hs : s.inv) : t.inv := by
  obtain ⟨_, _, _, rfl⟩ := h
  exact hs

theorem State.inv_buffer_wf {s : State} (hs : s.inv) (sel : BufferSel) :
    (s.buffer sel).wf (s.bufferSize sel) = true := by
  obtain ⟨-, -, ⟨hmb, hgb⟩, -, -⟩ := hs
  cases sel with
  | mono => exact hmb
  | gray => exact hgb

/-- A buffer replaced by a canonical one (R20, R25). -/
theorem State.withBuffer_inv {s : State} (hs : s.inv) {sel : BufferSel} {m : Memory}
    (hm : m.wf (s.bufferSize sel) = true) : (s.withBuffer m sel).inv := by
  obtain ⟨hcfg, hdims, ⟨hmb, hgb⟩, hmode, hcommits⟩ := hs
  cases sel with
  | mono => exact ⟨hcfg, hdims, ⟨hm, hgb⟩, hmode, hcommits⟩
  | gray => exact ⟨hcfg, hdims, ⟨hmb, hm⟩, hmode, hcommits⟩

/-- A byte written inside its buffer (R25, R32). -/
theorem State.memWrite_inv {s : State} (hs : s.inv) {sel : BufferSel} {i : Nat} (hi : i < s.bufferSize sel) (v : Byte) :
    (s.memWrite sel i v).inv :=
  State.withBuffer_inv hs (Memory.write_wf (State.inv_buffer_wf hs sel) hi v)

theorem pixelWrite_inv {x y : Int} {c : Colour} {s t : State} (h : (pixelWrite x y c s).carried = some t)
    (hs : s.inv) : t.inv := by
  rcases pixelWrite_carried h with rfl | ⟨-, i, v, hi, rfl⟩ | ⟨-, i, v, hi, rfl⟩
  · exact hs
  · exact State.memWrite_inv hs (sel := .mono) hi v
  · exact State.memWrite_inv hs (sel := .gray) hi v

theorem expand_inv {c : Colour} {ps : List Pixel} {s t : State} (h : (expand c ps s).carried = some t) (hs : s.inv) :
    t.inv :=
  expand_carried (R := fun s t => s.inv → t.inv) (fun _ => id) (fun hst htu => htu ∘ hst) pixelWrite_inv h hs

/-- `dims` is loaded together with ROT (R17, R55). -/
theorem State.withRotation_inv {s : State} (hs : s.inv) (r : BitVec 2) : (s.withRotation r).inv := by
  obtain ⟨hcfg, -, hbuffers, hmode, hcommits⟩ := hs
  exact ⟨hcfg, ⟨rfl, rfl⟩, hbuffers, hmode, hcommits⟩

/-- A mode that the policy allows (R18, R57). -/
theorem State.withMode_inv {s : State} (hs : s.inv) {m : Value} (hm : validMode s.cfg.modePolicy m = true) :
    (s.withMode m).inv := by
  obtain ⟨hcfg, hdims, hbuffers, -, hcommits⟩ := hs
  exact ⟨hcfg, hdims, hbuffers, hm, hcommits⟩

/-- How many requests the driver still serves is no part of the invariant. -/
theorem State.withServes_inv {s : State} (hs : s.inv) (n : Option Nat) : ({ s with pdServes := n } : State).inv := hs

/-- An event of a whole buffer at the end of the trace (R87). -/
theorem State.committed_inv {s : State} (hs : s.inv) (sel : BufferSel) :
    ({ s with commits := s.commits ++ [s.commitEvent sel] } : State).inv := by
  have hevent : (s.commitEvent sel).image.wf (s.commitEvent sel).size = true := State.inv_buffer_wf hs sel
  obtain ⟨hcfg, hdims, hbuffers, hmode, hcommits⟩ := hs
  refine ⟨hcfg, hdims, hbuffers, hmode, fun e he => ?_⟩
  rcases List.mem_append.mp he with hold | hnew
  · exact hcommits e hold
  · rw [List.mem_singleton.mp hnew]
    exact ⟨rfl, hevent⟩

theorem CommandChange.inv {i : Instr} {s u : State} (h : CommandChange i s u) (hs : s.inv) : u.inv := by
  cases h with
  | unchanged => exact hs
  | drawn hi hu => exact expand_inv hu hs
  | rotated hi => exact State.withRotation_inv hs _
  | modeSet hi hm => exact State.withMode_inv hs hm
  | modeSelected hi hm hne =>
    exact State.withBuffer_inv (State.withServes_inv (State.withMode_inv hs hm) _) (Memory.filled_wf _ _)
  | committed hi => exact State.withServes_inv (State.committed_inv hs _) _

theorem exec_inv {i : Instr} {s t : State} (h : exec i s = .next t) (hs : s.inv) : t.inv := by
  obtain ⟨u, hu, ht⟩ := exec_change h
  exact ht.inv (hu.inv hs)

/-! ### The statements on the state -/

/-- Settles O11: the ports are no part of the invariant, and each change of a command keeps it. -/
theorem stepKeepsTheInvariant : Obligations.StepKeepsTheInvariant := by
  intro s t hs h
  rcases step_change h with hports | ⟨rest, i, hexec⟩
  · exact hports.inv hs
  · exact exec_inv hexec ((State.portsOnly.accepted s rest).inv hs)

/-- Settles O19: no command's change writes the parameters or INIT. -/
theorem noStepWritesParametersOrInit : Obligations.NoStepWritesParametersOrInit := by
  intro s t h
  rcases step_change h with ⟨_, _, _, rfl⟩ | ⟨rest, i, hexec⟩
  · exact ⟨rfl, rfl⟩
  · obtain ⟨u, hu, _, _, _, rfl⟩ := exec_change hexec
    exact hu.cfg_init

/-- Settles O20: of a command's changes only SET_ROTATION's own writes ROT, LW or LH. -/
theorem onlySetRotationWritesRotation : Obligations.OnlySetRotationWritesRotation := by
  intro i s t hne h
  obtain ⟨u, hu, _, _, _, rfl⟩ := exec_change h
  exact hu.rotation hne

/-- Settles O21: of a command's changes only the mode commands' own write MODE. -/
theorem onlyModeCommandsWriteMode : Obligations.OnlyModeCommandsWriteMode := by
  intro i s t h
  obtain ⟨u, hu, _, _, _, rfl⟩ := exec_change h
  exact hu.mode

/-- The verdict on a word that decodes, of a machine whose reset succeeded (R49). -/
theorem verdict_of_decode {cw : CommandWord} {i : Instr} (h : decode cw = .instr i) : verdict .ready cw = .run i := by
  simp [verdict, h]

/-- Settles O12: the port gives up its oldest word, and the verdict on it is to run it. -/
theorem stepRunsTheDecodedCommand : Obligations.StepRunsTheDecodedCommand := by
  intro s cw rest i hbusy hinit hport hdecode
  have hverdict : verdict s.init cw = .run i := by rw [hinit, verdict_of_decode hdecode]
  simp [step, State.accept_command hbusy hport, hverdict]

end Sys2Proof.Machine

/-! The statements on the memory (20_memory.md): a buffer as data and as bytes, what reaches each buffer, and that a
command presented behind others waits on the port, which no meaning reads. -/

namespace Sys2Proof.Machine

/-! ### A buffer as its bytes -/

theorem Memory.bytes_eq_iff {size : Nat} {m m' : Memory} :
    m.bytes size = m'.bytes size ↔ ∀ i < size, m.read i = m'.read i := by
  simp [Memory.bytes]

/-- Settles O48: the laws of a write, at its own index and at any other. -/
theorem bufferReadsWhatWasWritten : Obligations.BufferReadsWhatWasWritten := by
  intro size i j v m hm hi
  refine ⟨Memory.write_wf hm hi v, ?_⟩
  by_cases hji : j = i
  · rw [if_pos hji, hji, Memory.read_write_same hm]
  · rw [if_neg hji, Memory.read_write_of_ne hm (Ne.symm hji)]

/-- Settles O49: equal bytes are equal reads at every index inside, and these fix a canonical buffer. -/
theorem equalBytesAreEqualBuffers : Obligations.EqualBytesAreEqualBuffers := by
  intro size m m' hm hm'
  constructor
  · intro h
    exact Memory.ext_of_read hm hm' (Memory.bytes_eq_iff.mp h)
  · rintro rfl
    rfl

/-! ### What reaches each buffer -/

@[simp] theorem bufferOfMode_eq_mono_iff (m : BitVec 32) : bufferOfMode m = .mono ↔ m = modeMono := by
  simp [bufferOfMode]

@[simp] theorem bufferOfMode_eq_gray_iff (m : BitVec 32) : bufferOfMode m = .gray ↔ m ≠ modeMono := by
  simp [bufferOfMode]

/-- A buffer that a command's change does not leave as it was is the mode's own under a drawing command (R67), or the
new mode's under SELECT_DISPLAY_MODE (R53, R59). -/
theorem CommandChange.buffer {i : Instr} {s u : State} (h : CommandChange i s u) {sel : BufferSel}
    (hne : u.buffer sel ≠ s.buffer sel) :
    ((drawnPixels i).isSome = true ∧ (sel = .mono → s.mode = modeMono) ∧ (sel = .gray → s.mode = modeGray)) ∨
      ∃ m, i = .selectDisplayMode m ∧ m ≠ s.mode ∧ bufferOfMode m = sel := by
  cases h with
  | drawn hi hu =>
    obtain ⟨-, hmb, hgb⟩ := expand_drawnTo hu
    refine .inl ⟨by rw [hi]; rfl, ?_, ?_⟩
    · rintro rfl
      exact not_imp_comm.mp hmb hne
    · rintro rfl
      exact not_imp_comm.mp hgb hne
  | @modeSelected m hi hm hmode =>
    by_cases hsel : sel = bufferOfMode m
    · exact .inr ⟨m, hi, hmode, hsel.symm⟩
    · exact absurd (State.buffer_withBuffer_of_ne _ _ hsel) hne
  | unchanged | rotated | modeSet | committed => exact absurd rfl hne

/-- Settles O22: of a command's changes only the drawn pixels and the clear of a selected mode reach a buffer. -/
theorem buffersChangeOnlyAsListed : Obligations.BuffersChangeOnlyAsListed := by
  intro i s t h
  obtain ⟨u, hu, _, _, _, rfl⟩ := exec_change h
  constructor
  · intro hmb
    rcases hu.buffer (sel := .mono) hmb with ⟨hdraw, hmode, -⟩ | ⟨m, hi, hne, hsel⟩
    · exact .inl ⟨hmode rfl, hdraw⟩
    · obtain rfl := (bufferOfMode_eq_mono_iff m).mp hsel
      exact .inr ⟨hi, hne.symm⟩
  · intro hgb
    rcases hu.buffer (sel := .gray) hgb with ⟨hdraw, -, hmode⟩ | ⟨m, hi, hne, hsel⟩
    · exact .inl ⟨hmode rfl, hdraw⟩
    · exact .inr ⟨m, hi, (bufferOfMode_eq_gray_iff m).mp hsel, hne⟩

/-! ### A command presented behind others

Each operation, run with one more command on the port, does what it does without it and leaves the command there. -/

/-- An effect with `cw` presented in the state it carries. -/
def Effect.present (cw : CommandWord) : Effect → Effect
  | .go s => .go (s.present cw)
  | .raised st d s => .raised st d (s.present cw)
  | .waiting s => .waiting (s.present cw)
  | .fault f => .fault f

/-- An outcome with `cw` presented in its next state. -/
def presentNext (cw : CommandWord) : Host.Outcome State Fault Refusal → Host.Outcome State Fault Refusal
  | .next s => .next (s.present cw)
  | .fault f => .fault f
  | .refused r => .refused r

theorem Effect.finish_present (cw : CommandWord) (e : Effect) :
    (e.present cw).finish = presentNext cw e.finish := by
  cases e <;> rfl

theorem State.withBuffer_present (cw : CommandWord) (s : State) (m : Memory) (sel : BufferSel) :
    (s.present cw).withBuffer m sel = (s.withBuffer m sel).present cw := by
  cases sel <;> rfl

@[simp] theorem State.buffer_present (cw : CommandWord) (s : State) (sel : BufferSel) :
    (s.present cw).buffer sel = s.buffer sel := by
  cases sel <;> rfl

@[simp] theorem State.bufferSize_present (cw : CommandWord) (s : State) (sel : BufferSel) :
    (s.present cw).bufferSize sel = s.bufferSize sel := by
  cases sel <;> rfl

theorem modifyByte_present (cw : CommandWord) (sel : BufferSel) (i : Nat) (f : Byte → Byte) (s : State) :
    modifyByte sel i f (s.present cw) = (modifyByte sel i f s).present cw := by
  by_cases hi : i < s.bufferSize sel
  · rw [modifyByte_of_lt hi, modifyByte_of_lt (by simpa using hi)]
    simp [State.memWrite, State.memRead, State.withBuffer_present, Effect.present]
  · rw [modifyByte_of_ge hi, modifyByte_of_ge (by simpa using hi)]
    rfl

theorem dispatchPixel_present (cw : CommandWord) (p : Pixel) (c : Colour) (s : State) :
    dispatchPixel p c (s.present cw) = (dispatchPixel p c s).present cw := by
  by_cases hmono : s.mode = modeMono
  · rw [dispatchPixel_mono hmono, dispatchPixel_mono (s := s.present cw) hmono]
    exact modifyByte_present ..
  · by_cases hgray : s.mode = modeGray
    · rw [dispatchPixel_gray hgray, dispatchPixel_gray (s := s.present cw) hgray]
      exact modifyByte_present ..
    · rw [dispatchPixel_other hmono hgray, dispatchPixel_other (s := s.present cw) hmono hgray]
      rfl

theorem pixelWrite_present (cw : CommandWord) (x y : Int) (c : Colour) (s : State) :
    pixelWrite x y c (s.present cw) = (pixelWrite x y c s).present cw := by
  rw [pixelWrite, pixelWrite, placePixel, placePixel, apply_ite (Effect.present cw), apply_ite (Effect.present cw),
    ← dispatchPixel_present]
  rfl

theorem expand_present (cw : CommandWord) (c : Colour) (ps : List Pixel) (s : State) :
    expand c ps (s.present cw) = (expand c ps s).present cw := by
  induction ps generalizing s with
  | nil => rfl
  | cons p ps ih =>
    rw [expand, expand, pixelWrite_present]
    cases pixelWrite p.1 p.2 c s with
    | go t => exact ih t
    | raised | waiting | fault => rfl

theorem State.panelRequest_present (cw : CommandWord) (s : State) :
    (s.present cw).panelRequest = s.panelRequest.map (State.present cw) := by
  simp only [State.panelRequest, State.present_pdServes]
  split <;> rfl

theorem clearBuffer_present (cw : CommandWord) (sel : BufferSel) (s : State) :
    clearBuffer sel (s.present cw) = (clearBuffer sel s).present cw := by
  simp only [clearBuffer, State.panelRequest_present]
  cases s.panelRequest with
  | none => rfl
  | some t => simp [Effect.present, State.withBuffer_present]

@[simp] theorem State.commitEvent_present (cw : CommandWord) (s : State) (sel : BufferSel) :
    (s.present cw).commitEvent sel = s.commitEvent sel := by
  simp [State.commitEvent]

theorem commitBuffer_present (cw : CommandWord) (sel : BufferSel) (s : State) :
    commitBuffer sel (s.present cw) = (commitBuffer sel s).present cw := by
  simp only [commitBuffer, State.panelRequest_present, State.commitEvent_present]
  cases s.panelRequest with
  | none | some => rfl

theorem assignMode_present (cw : CommandWord) (m : Value) (s : State) :
    assignMode m (s.present cw) = (assignMode m s).present cw := by
  rw [assignMode, assignMode, apply_ite (Effect.present cw)]
  rfl

theorem selectMode_present (cw : CommandWord) (m : Value) (s : State) :
    selectMode m (s.present cw) = (selectMode m s).present cw := by
  rw [selectMode, selectMode, apply_ite (Effect.present cw), apply_ite (Effect.present cw), ← clearBuffer_present]
  rfl

theorem whenReady_present {cw : CommandWord} {s : State} {b b' : Host.Outcome State Fault Refusal}
    (h : b' = presentNext cw b) : whenReady (s.present cw) b' = presentNext cw (whenReady s b) := by
  subst h
  cases hinit : s.init with
  | failed => rw [whenReady_of_failed hinit, whenReady_of_failed (s := s.present cw) hinit]; rfl
  | ready => rw [whenReady_of_ready hinit, whenReady_of_ready (s := s.present cw) hinit]

/-- The same for a command that ends with the end of its body. -/
theorem whenReady_finish_present {cw : CommandWord} {s : State} {e e' : Effect} (h : e' = e.present cw) :
    whenReady (s.present cw) e'.finish = presentNext cw (whenReady s e.finish) :=
  whenReady_present (by rw [h, Effect.finish_present])

/-- No meaning reads or writes the port (R36). -/
theorem exec_present (cw : CommandWord) (i : Instr) (s : State) :
    exec i (s.present cw) = presentNext cw (exec i s) := by
  cases i with
  | writePixel | drawPixel => exact whenReady_finish_present (pixelWrite_present ..)
  | writeFastHLine | writeFastVLine | writeFillRect | writeLine =>
    exact whenReady_finish_present (expand_present ..)
  | setDisplayMode => exact whenReady_finish_present (assignMode_present ..)
  | selectDisplayMode => exact whenReady_finish_present (selectMode_present ..)
  | showBuffer => exact whenReady_finish_present (commitBuffer_present ..)
  | startWrite | endWrite | setRotation => exact whenReady_finish_present rfl
  | getRotation | getDisplayMode | getWidth | getHeight => exact whenReady_present rfl

/-- Where a command is already presented, one more changes neither which word is taken nor what becomes of it (R112). -/
theorem step_present {s : State} (hport : s.port ≠ []) (cw : CommandWord) :
    step (s.present cw) = presentNext cw (step s) := by
  obtain ⟨first, rest, hport⟩ := List.exists_cons_of_ne_nil hport
  cases hbusy : s.busy with
  | true =>
    simp [step, State.accept_stuck hbusy, State.accept_stuck (s := s.present cw) hbusy, presentNext]
  | false =>
    have haccept : (s.present cw).accept = .command first (State.present cw { s with port := rest, busy := true }) :=
      State.accept_command (s := s.present cw) hbusy (by simp [hport])
    simp only [step, State.accept_command hbusy hport, haccept, State.present_init]
    cases verdict s.init first with
    | answer st d => rfl
    | run i => exact exec_present cw i { s with port := rest, busy := true }

/-- Settles O15: the step is the same with the command on the port, and leaves it there. -/
theorem presentedCommandIsHeld : Obligations.PresentedCommandIsHeld := by
  intro s t cw hport h
  rw [step_present hport, h]
  rfl

end Sys2Proof.Machine

/-! The statements on the encoding (30_encoding.md): decode and encode undo each other, what the decoder rejects is
answered and changes no state, the assembler's lines and their commands, and that a command is answered once. -/

namespace Sys2Proof

open Sys2Proof.Laws.EncodeFields (rowOf)

/-! ### The word of an instruction -/

/-- A word put together with zero operands is zero below its opcode. -/
@[simp] theorem operandBits_assembleWord_zero (o : Opcode) :
    (assembleWord o 0#16 0#16 0#16 0#16 0#16).extractLsb' 0 120 = 0#120 := by
  apply BitVec.eq_of_toNat_eq
  simp only [BitVec.extractLsb'_toNat, assembleWord_toNat, Nat.shiftRight_eq_div_pow, BitVec.toNat_ofNat]
  omega

/-- The word carries the opcode of the instruction's row (R46). -/
theorem fieldOpc_encode (i : Instr) : fieldOpc (encode i) = (rowOf i).code := by
  cases i <;> exact fieldOpc_assembleWord ..

/-- The word has zeros in RSV and in every field the row marks `0` (R48, R51). -/
theorem reservedFieldsZero_encode (i : Instr) : reservedFieldsZero (encode i) (rowOf i) := by
  cases i <;> simp [reservedFieldsZero, rowOf, encode]

/-- Every operand reads back from its own field, where the coordinates and lengths fit theirs (R43, R44, R45). -/
theorem operands_encode {i : Instr} (h : i.wellFormed = true) : (rowOf i).operands (encode i) = i := by
  cases i with
  | writePixel | drawPixel | writeFastHLine | writeFastVLine | writeFillRect | writeLine =>
    simp only [Instr.wellFormed, Bool.and_eq_true] at h
    simp [rowOf, Opcode.operands, encode, sext16_coordField, h]
  | setRotation | setDisplayMode | selectDisplayMode => simp [rowOf, Opcode.operands, encode]
  | startWrite | endWrite | getRotation | getDisplayMode | getWidth | getHeight | showBuffer => rfl

/-- Settles O2: the word has its row's opcode and zero reserved fields, so it decodes to the row's operands. -/
theorem decodeOfEncodeIsTheInstruction : Obligations.DecodeOfEncodeIsTheInstruction := by
  intro i hwf
  rw [decode_of_reservedFieldsZero (fieldOpc_encode i) (reservedFieldsZero_encode i), operands_encode hwf]

/-! ### The instruction of a word -/

/-- A word with zero RSV is put together from its other fields. -/
theorem assembleWord_fields {cw : CommandWord} {o : Opcode} (hopc : fieldOpc cw = o.code) (hrsv : fieldRsv cw = 0#40) :
    assembleWord o (fieldColor cw) (fieldF3 cw) (fieldF2 cw) (fieldF1 cw) (fieldF0 cw) = cw := by
  apply word_ext <;> simp [hopc, hrsv]

/-- Encoding the operands of a row gives back a word whose reserved fields are zero (R46, R48). -/
theorem encode_operands {cw : CommandWord} {o : Opcode} (hopc : fieldOpc cw = o.code) (hr : reservedFieldsZero cw o) :
    encode (o.operands cw) = cw := by
  cases o with
  | writePixel | drawPixel =>
    obtain ⟨hrsv, hf3, hf2⟩ := hr
    simpa [Opcode.operands, encode, hf3, hf2] using assembleWord_fields hopc hrsv
  | writeFastHLine | writeFastVLine =>
    obtain ⟨hrsv, hf3⟩ := hr
    simpa [Opcode.operands, encode, hf3] using assembleWord_fields hopc hrsv
  | writeFillRect | writeLine => simpa [Opcode.operands, encode] using assembleWord_fields hopc hr
  | setRotation | setDisplayMode | selectDisplayMode =>
    obtain ⟨hrsv, hcolor, hf3, hf2⟩ := hr
    simpa [Opcode.operands, encode, hcolor, hf3, hf2] using assembleWord_fields hopc hrsv
  | startWrite | endWrite | getRotation | getDisplayMode | getWidth | getHeight | showBuffer =>
    obtain ⟨hrsv, hcolor, hf3, hf2, hf1, hf0⟩ := fields_of_plain hr
    simpa [Opcode.operands, encode, hcolor, hf3, hf2, hf1, hf0] using assembleWord_fields hopc hrsv

/-- What `sext_16` reads from a field fits it (R9, R43). -/
theorem operands_wellFormed (cw : CommandWord) (o : Opcode) : (o.operands cw).wellFormed = true := by
  cases o <;> simp [Opcode.operands, Instr.wellFormed, coordFits_sext16]

/-- Settles O3: a word that decodes has its row's opcode and zero reserved fields. -/
theorem encodeOfDecodeIsTheWord : Obligations.EncodeOfDecodeIsTheWord := by
  intro cw i h
  rcases decode_cases cw with ⟨-, e⟩ | ⟨_, -, -, e⟩ | ⟨o, hopc, hr, e⟩ <;> rw [e] at h <;> cases h
  exact ⟨encode_operands hopc.symm hr, operands_wellFormed cw o⟩

/-- A well-formed instruction is decoded from its own word and from no other. -/
theorem decode_eq_instr_iff {cw : CommandWord} {i : Instr} (hwf : i.wellFormed = true) :
    decode cw = .instr i ↔ cw = encode i := by
  constructor
  · intro h
    exact (encodeOfDecodeIsTheWord cw i h).1.symm
  · rintro rfl
    exact decodeOfEncodeIsTheInstruction i hwf

/-- Settles O50: each coordinate is the reading of a field, so the instruction is well-formed and its word holds the
field itself. -/
theorem drawingCommandsHaveTheirEncodings : Obligations.DrawingCommandsHaveTheirEncodings := by
  intro cw color f0 f1 f2 f3
  have fits (f : BitVec 16) : coordFits f.toInt = true := coordFits_sext16 f
  have field (f : BitVec 16) : coordField f.toInt = f := coordField_sext16 f
  refine ⟨?_, ?_, ?_, ?_, ?_, ?_⟩ <;>
  · rw [decode_eq_instr_iff (by simp [Instr.wellFormed, fits])]
    simp only [encode, field]
    rfl

/-! ### Words that name no instruction -/

/-- The numbers of the assigned opcodes lie in R46's three ranges. -/
theorem Opcode.code_toNat_cases (o : Opcode) : (0x01 ≤ o.code.toNat ∧ o.code.toNat ≤ 0x08) ∨
    (0x10 ≤ o.code.toNat ∧ o.code.toNat ≤ 0x16) ∨ o.code.toNat = 0x20 := by
  cases o <;> decide

/-- A number of R47 finds no row. -/
theorem opcodeOf_unassigned {opc : BitVec 8} (h : opc.toNat = 0 ∨ (0x09 ≤ opc.toNat ∧ opc.toNat ≤ 0x0F) ∨
    (0x17 ≤ opc.toNat ∧ opc.toNat ≤ 0x1F) ∨ 0x21 ≤ opc.toNat) : opcodeOf opc = none := by
  cases ho : opcodeOf opc with
  | none => rfl
  | some o =>
    have hrange := Opcode.code_toNat_cases o
    rw [code_of_opcodeOf ho] at hrange
    omega

theorem decode_of_unassigned {cw : CommandWord} (h : opcodeOf (fieldOpc cw) = none) :
    decode cw = .illegalOpcode (fieldOpc cw) := by
  simp [decode, h]

/-- An assigned opcode with a reserved bit set (R48). -/
theorem decode_of_reservedBit {cw : CommandWord} {o : Opcode} (hopc : fieldOpc cw = o.code)
    (hr : ¬ reservedFieldsZero cw o) : decode cw = .reservedNonzero := by
  unfold decode
  rw [hopc, opcodeOf_code]
  exact if_neg (mt (and_rmask_eq_zero cw o).mp hr)

end Sys2Proof

namespace Sys2Proof.Machine

/-! ### Words that are answered at once -/

/-- A word the decoder's checks reject is taken from the port and answered, and nothing else changes (R91, R92, R93). -/
theorem step_of_answer {s : State} {cw : CommandWord} {rest : List CommandWord} {st : Status} {d : Value}
    (hbusy : s.busy = false) (hport : s.port = cw :: rest) (hverdict : verdict s.init cw = .answer st d) :
    step s = .next { s with port := rest, responses := s.responses ++ [⟨st, d⟩] } := by
  simp only [step, State.accept_command hbusy hport, hverdict, State.respond, hbusy]

/-- Settles O4: none of these numbers is in the opcode map, so the verdict is ILLEGAL_OPCODE. -/
theorem unassignedOpcodeIsAnsweredIllegal : Obligations.UnassignedOpcodeIsAnsweredIllegal := by
  intro s cw rest hbusy hinit hport hopc
  refine step_of_answer hbusy hport ?_
  simp [verdict, hinit, decode_of_unassigned (opcodeOf_unassigned hopc)]

/-- Settles O5: the opcode finds its row and the row's mask a set bit, so the verdict is RESERVED_NONZERO. -/
theorem reservedBitIsAnsweredReserved : Obligations.ReservedBitIsAnsweredReserved := by
  intro s cw rest o hbusy hinit hport hopc hr
  refine step_of_answer hbusy hport ?_
  simp [verdict, hinit, decode_of_reservedBit hopc hr]

/-! ### One answer to each command -/

/-- The outcome `o` is one answer to the command that `s` is busy with: one response more, idle again, and the port as
it was (R50, R112). -/
def answersOnce (s : State) (o : Host.Outcome State Fault Refusal) : Prop :=
  ∃ t r, o = .next t ∧ t.port = s.port ∧ t.busy = false ∧ t.responses = s.responses ++ [r]

/-- A response from a state with the same ports. -/
theorem answersOnce_respond {s u : State} (hport : u.port = s.port) (hresp : u.responses = s.responses) (st : Status)
    (d : Value) : answersOnce s (.next (u.respond st d)) :=
  ⟨_, ⟨st, d⟩, rfl, hport, rfl, by rw [State.respond_responses, hresp]⟩

theorem answersOnce_whenReady {s : State} {body : Host.Outcome State Fault Refusal} (h : answersOnce s body) :
    answersOnce s (whenReady s body) := by
  cases hinit : s.init with
  | failed =>
    rw [whenReady_of_failed hinit]
    exact answersOnce_respond rfl rfl _ _
  | ready => rwa [whenReady_of_ready hinit]

/-- A pixel on the panel has a byte in either buffer (R27, R28, R65). -/
theorem dispatchPixel_ne_fault {s : State} (hs : s.inv) {p : Pixel} (hp : Config.onPanel s.cfg p = true) (c : Colour)
    (f : Fault) : dispatchPixel p c s ≠ .fault f := by
  obtain ⟨hcfg, -⟩ := hs
  obtain ⟨⟨hx0, hx⟩, hy0, hy⟩ := (Config.onPanel_iff _ _).mp hp
  have hx' : p.1.toNat < s.cfg.pw := by omega
  have hy' : p.2.toNat < s.cfg.ph := by omega
  by_cases hmono : s.mode = modeMono
  · rw [dispatchPixel_mono hmono, modifyByte_of_lt (Config.mbyte_lt hcfg hx' hy')]
    nofun
  · by_cases hgray : s.mode = modeGray
    · rw [dispatchPixel_gray hgray, modifyByte_of_lt (Config.gbyte_lt hcfg hx' hy')]
      nofun
    · rw [dispatchPixel_other hmono hgray]
      nofun

theorem pixelWrite_ne_fault {s : State} (hs : s.inv) (x y : Int) (c : Colour) (f : Fault) :
    pixelWrite x y c s ≠ .fault f := by
  rcases pixelWrite_cases x y c s with ⟨-, e⟩ | ⟨-, -, e⟩ | ⟨hin, hoff, e⟩ <;> rw [e]
  · nofun
  · nofun
  · exact dispatchPixel_ne_fault hs (State.physical_onPanel hs hin hoff) c f

/-- Drawing makes no access that does not exist (R25, R77). -/
theorem expand_ne_fault {s : State} (hs : s.inv) (c : Colour) (ps : List Pixel) (f : Fault) :
    expand c ps s ≠ .fault f := by
  induction ps generalizing s with
  | nil => nofun
  | cons p ps ih =>
    rw [expand]
    cases hp : pixelWrite p.1 p.2 c s with
    | go t => exact ih (pixelWrite_inv (by rw [hp]; rfl) hs)
    | raised | waiting => nofun
    | fault f' => exact absurd hp (pixelWrite_ne_fault hs _ _ c f')

/-- Drawing writes the buffers alone, so its answer is the only one (R74). -/
theorem answersOnce_expand {s : State} (hs : s.inv) (c : Colour) (ps : List Pixel) :
    answersOnce s (expand c ps s).finish := by
  have ports {t : State} (h : (expand c ps s).carried = some t) : t.port = s.port ∧ t.responses = s.responses := by
    obtain ⟨e, -, -⟩ := expand_drawnTo h
    rw [e]
    exact ⟨rfl, rfl⟩
  rcases expand_cases c ps s with ⟨t, e⟩ | ⟨d, t, e⟩ | e
  · obtain ⟨hport, hresp⟩ := ports (by rw [e]; rfl)
    rw [e]
    exact answersOnce_respond hport hresp _ _
  · obtain ⟨hport, hresp⟩ := ports (by rw [e]; rfl)
    rw [e]
    exact answersOnce_respond hport hresp _ _
  · exact absurd e (expand_ne_fault hs c ps _)

theorem answersOnce_assignMode (m : Value) (s : State) : answersOnce s (assignMode m s).finish := by
  rcases assignMode_cases m s with ⟨-, e⟩ | ⟨-, e⟩ <;> rw [e] <;> exact answersOnce_respond rfl rfl _ _

theorem answersOnce_selectMode {s : State} (hserves : s.driverServes) (m : Value) :
    answersOnce s (selectMode m s).finish := by
  rcases selectMode_cases m s with ⟨-, -, e⟩ | ⟨-, -, e⟩ | ⟨-, e⟩ <;> rw [e]
  · exact answersOnce_respond rfl rfl _ _
  · rcases clearBuffer_cases (bufferOfMode m) (s.withMode m) with ⟨-, e'⟩ | ⟨hsilent, -⟩
    · rw [e']
      exact answersOnce_respond (by simp) (by simp) _ _
    · exact absurd hsilent hserves
  · exact answersOnce_respond rfl rfl _ _

theorem answersOnce_commitBuffer {s : State} (hserves : s.driverServes) (sel : BufferSel) :
    answersOnce s (commitBuffer sel s).finish := by
  rcases commitBuffer_cases sel s with ⟨-, e⟩ | ⟨hsilent, -⟩
  · rw [e]
    exact answersOnce_respond rfl rfl _ _
  · exact absurd hsilent hserves

/-- Every command answers once, in a state of the invariant whose driver serves its request (R97). -/
theorem exec_answersOnce {s : State} (hs : s.inv) (hserves : s.driverServes) (i : Instr) :
    answersOnce s (exec i s) := by
  cases i with
  | writePixel x y c =>
    rw [exec_writePixel]
    exact answersOnce_whenReady (answersOnce_expand hs _ _)
  | drawPixel x y c =>
    rw [exec_drawPixel]
    exact answersOnce_whenReady (answersOnce_expand hs _ _)
  | writeFastHLine | writeFastVLine | writeFillRect | writeLine =>
    exact answersOnce_whenReady (answersOnce_expand hs _ _)
  | setDisplayMode m => exact answersOnce_whenReady (answersOnce_assignMode m s)
  | selectDisplayMode m => exact answersOnce_whenReady (answersOnce_selectMode hserves m)
  | showBuffer => exact answersOnce_whenReady (answersOnce_commitBuffer hserves _)
  | startWrite | endWrite | setRotation | getRotation | getDisplayMode | getWidth | getHeight =>
    exact answersOnce_whenReady (answersOnce_respond rfl rfl _ _)

/-- Settles O16: a rejected word is answered by the decoder's checks, and a command that runs by its own meaning. -/
theorem everyCommandIsAnsweredOnce : Obligations.EveryCommandIsAnsweredOnce := by
  intro s cw rest hs hbusy hserves hport
  have accepted : answersOnce { s with port := rest, busy := true } (step s) := by
    rcases step_cases s with ⟨hb, -⟩ | ⟨-, hp, -⟩ | ⟨cw', rest', -, hp, h⟩
    · simp [hbusy] at hb
    · simp [hport] at hp
    · obtain ⟨-, rfl⟩ := List.cons.inj (hport.symm.trans hp)
      rcases h with ⟨st, d, -, e⟩ | ⟨i, -, e⟩ <;> rw [e]
      · exact answersOnce_respond rfl rfl st d
      · exact exec_answersOnce ((State.portsOnly.accepted s rest).inv hs) hserves i
  exact accepted

/-! ### A line that assembles -/

/-- What a coordinate or length operand gives fits its field (R43, R51). -/
theorem AsmOperand.coordFits_of_coord {a : AsmOperand} {v : Int} (h : a.coord = some v) : coordFits v = true := by
  cases a with
  | dec w =>
    simp only [AsmOperand.coord, Option.ite_none_right_eq_some, Option.some.injEq] at h
    obtain ⟨hrange, rfl⟩ := h
    simpa [coordFits] using hrange
  | hex n =>
    simp only [AsmOperand.coord, Option.ite_none_right_eq_some, Option.some.injEq] at h
    obtain ⟨-, rfl⟩ := h
    exact coordFits_sext16 _
  | mode w => nomatch h

/-- Every coordinate and length of an assembled command went through its operand's range check (R51). -/
theorem assembleParts_wellFormed {m : String} {as : List AsmOperand} {i : Instr} (h : assembleParts m as = some i) :
    i.wellFormed = true := by
  unfold assembleParts at h
  split at h <;>
    simp only [Option.bind_eq_bind, Option.pure_def, Option.bind_eq_some_iff, Option.some.injEq, reduceCtorEq] at h
  case h_1 | h_2 =>
    obtain ⟨x, hx, y, hy, c, -, rfl⟩ := h
    simp [Instr.wellFormed, AsmOperand.coordFits_of_coord hx, AsmOperand.coordFits_of_coord hy]
  case h_3 | h_4 =>
    obtain ⟨x, hx, y, hy, z, hz, c, -, rfl⟩ := h
    simp [Instr.wellFormed, AsmOperand.coordFits_of_coord hx, AsmOperand.coordFits_of_coord hy,
      AsmOperand.coordFits_of_coord hz]
  case h_5 | h_6 =>
    obtain ⟨x, hx, y, hy, z, hz, w, hw, c, -, rfl⟩ := h
    simp [Instr.wellFormed, AsmOperand.coordFits_of_coord hx, AsmOperand.coordFits_of_coord hy,
      AsmOperand.coordFits_of_coord hz, AsmOperand.coordFits_of_coord hw]
  case h_9 | h_11 | h_12 =>
    obtain ⟨v, -, rfl⟩ := h
    rfl
  all_goals
    subst h
    rfl

/-- A line that assembles is a mnemonic with its operands. -/
theorem exists_assembleParts_of_assembleLine {line : String} {i : Instr} (h : assembleLine line = .command i) :
    ∃ m as, assembleParts m as = some i := by
  simp only [assembleLine, assembleChars] at h
  split at h
  · nomatch h
  · split at h
    · rename_i hparts
      obtain ⟨as, -, has⟩ := Option.bind_eq_some_iff.mp hparts
      cases h
      exact ⟨_, as, has⟩
    · nomatch h

/-- Settles O7: the range checks make the command well-formed, and then its word decodes to it. -/
theorem assembledCommandsAreWellFormed : Obligations.AssembledCommandsAreWellFormed := by
  intro line i h
  obtain ⟨m, as, has⟩ := exists_assembleParts_of_assembleLine h
  have hwf := assembleParts_wellFormed has
  exact ⟨hwf, decodeOfEncodeIsTheInstruction i hwf⟩

/-! ### A line in the plain spelling -/

/-- The operand that the text of an operand reads back as. -/
def AsmOperand.asRead (a : AsmOperand) : AsmOperand := (operandOf a.text.toList).getD a

theorem operandOf_text_asRead (a : AsmOperand) : operandOf a.text.toList = some a.asRead := by
  rw [AsmOperand.asRead]
  rcases operandOf_text a with e | ⟨-, e⟩ <;> rw [e] <;> rfl

/-- An operand reads back as itself, but a mode that has no symbol as GRAY. -/
theorem AsmOperand.asRead_cases (a : AsmOperand) : a.asRead = a ∨ ((∃ v, a = .mode v) ∧ a.asRead = .mode 3) := by
  rcases operandOf_text a with e | ⟨hmode, e⟩
  · exact .inl (by rw [AsmOperand.asRead, e]; rfl)
  · exact .inr ⟨hmode, by rw [AsmOperand.asRead, e]; rfl⟩

/-- No symbol is a coordinate, a colour or a rotation value, so it does not matter which one is read (R51). -/
theorem AsmOperand.ranges_asRead (a : AsmOperand) :
    a.asRead.coord = a.coord ∧ a.asRead.colour = a.colour ∧ a.asRead.rotation = a.rotation := by
  rcases a.asRead_cases with e | ⟨⟨v, rfl⟩, e⟩ <;> rw [e] <;> exact ⟨rfl, rfl, rfl⟩

@[simp] theorem AsmOperand.coord_asRead (a : AsmOperand) : a.asRead.coord = a.coord := a.ranges_asRead.1
@[simp] theorem AsmOperand.colour_asRead (a : AsmOperand) : a.asRead.colour = a.colour := a.ranges_asRead.2.1
@[simp] theorem AsmOperand.rotation_asRead (a : AsmOperand) : a.asRead.rotation = a.rotation := a.ranges_asRead.2.2

theorem AsmOperand.asRead_of_meansMode {a : AsmOperand} {m : Value} (h : a.meansMode m) : a.asRead = a := by
  cases a with
  | dec v => simp [AsmOperand.asRead, operandOf_dec]
  | hex n => simp [AsmOperand.asRead, operandOf_hex]
  | mode v => simp [AsmOperand.asRead, operandOf_mode h.1]

theorem AsmOperand.asRead_of_outsideValue {a : AsmOperand} (h : a.outsideValue) : a.asRead = a := by
  rcases a.asRead_cases with e | ⟨⟨v, rfl⟩, -⟩
  · exact e
  · exact h.elim

theorem mapM_operandOf_text (as : List AsmOperand) :
    (as.map fun a => a.text.toList).mapM operandOf = some (as.map AsmOperand.asRead) := by
  induction as with
  | nil => rfl
  | cons a as ih => simp [operandOf_text_asRead, ih]

/-- A line in the plain spelling is its mnemonic with its operands as they read back. -/
theorem assembleLine_operands {line m : String} {a : AsmOperand} {as : List AsmOperand}
    (hm : m.toList.isEmpty = false ∧ m.toList.all cleanChar = true)
    (hline : line.toList = m.toList ++ ' ' :: joinOperands ((a :: as).map fun b => b.text.toList)) :
    assembleLine line = assembledOf (assembleParts m ((a :: as).map AsmOperand.asRead)) := by
  rw [assembleLine, hline, assembleChars_operands (cleanText_of_all hm), mapM_operandOf_text]
  rfl

theorem assembleLine_writePixel (a b g : AsmOperand) :
    assembleLine ("WRITE_PIXEL " ++ a.text ++ ", " ++ b.text ++ ", " ++ g.text) =
      assembledOf (do return .writePixel (← a.coord) (← b.coord) (← g.colour)) :=
  (assembleLine_operands (m := "WRITE_PIXEL") (a := a) (as := [b, g]) (by decide) (by simp [joinOperands])).trans
    (by simp)

theorem assembleLine_drawPixel (a b g : AsmOperand) :
    assembleLine ("DRAW_PIXEL " ++ a.text ++ ", " ++ b.text ++ ", " ++ g.text) =
      assembledOf (do return .drawPixel (← a.coord) (← b.coord) (← g.colour)) :=
  (assembleLine_operands (m := "DRAW_PIXEL") (a := a) (as := [b, g]) (by decide) (by simp [joinOperands])).trans
    (by simp)

theorem assembleLine_writeFastHLine (a b d g : AsmOperand) :
    assembleLine ("WRITE_FAST_HLINE " ++ a.text ++ ", " ++ b.text ++ ", " ++ d.text ++ ", " ++ g.text) =
      assembledOf (do return .writeFastHLine (← a.coord) (← b.coord) (← d.coord) (← g.colour)) :=
  (assembleLine_operands (m := "WRITE_FAST_HLINE") (a := a) (as := [b, d, g]) (by decide)
    (by simp [joinOperands])).trans (by simp)

theorem assembleLine_writeFastVLine (a b d g : AsmOperand) :
    assembleLine ("WRITE_FAST_VLINE " ++ a.text ++ ", " ++ b.text ++ ", " ++ d.text ++ ", " ++ g.text) =
      assembledOf (do return .writeFastVLine (← a.coord) (← b.coord) (← d.coord) (← g.colour)) :=
  (assembleLine_operands (m := "WRITE_FAST_VLINE") (a := a) (as := [b, d, g]) (by decide)
    (by simp [joinOperands])).trans (by simp)

theorem assembleLine_writeFillRect (a b d e g : AsmOperand) :
    assembleLine ("WRITE_FILL_RECT " ++ a.text ++ ", " ++ b.text ++ ", " ++ d.text ++ ", " ++ e.text ++ ", " ++
      g.text) = assembledOf (do return .writeFillRect (← a.coord) (← b.coord) (← d.coord) (← e.coord) (← g.colour)) :=
  (assembleLine_operands (m := "WRITE_FILL_RECT") (a := a) (as := [b, d, e, g]) (by decide)
    (by simp [joinOperands])).trans (by simp)

theorem assembleLine_writeLine (a b d e g : AsmOperand) :
    assembleLine ("WRITE_LINE " ++ a.text ++ ", " ++ b.text ++ ", " ++ d.text ++ ", " ++ e.text ++ ", " ++ g.text) =
      assembledOf (do return .writeLine (← a.coord) (← b.coord) (← d.coord) (← e.coord) (← g.colour)) :=
  (assembleLine_operands (m := "WRITE_LINE") (a := a) (as := [b, d, e, g]) (by decide) (by simp [joinOperands])).trans
    (by simp)

theorem assembleLine_setRotation (a : AsmOperand) :
    assembleLine ("SET_ROTATION " ++ a.text) = assembledOf (do return .setRotation (← a.rotation)) :=
  (assembleLine_operands (m := "SET_ROTATION") (a := a) (as := []) (by decide) (by simp [joinOperands])).trans
    (by simp)

theorem assembleLine_setDisplayMode (a : AsmOperand) :
    assembleLine ("SET_DISPLAY_MODE " ++ a.text) = assembledOf (do return .setDisplayMode (← a.asRead.modeValue)) :=
  (assembleLine_operands (m := "SET_DISPLAY_MODE") (a := a) (as := []) (by decide) (by simp [joinOperands])).trans
    (by simp)

theorem assembleLine_selectDisplayMode (a : AsmOperand) :
    assembleLine ("SELECT_DISPLAY_MODE " ++ a.text) =
      assembledOf (do return .selectDisplayMode (← a.asRead.modeValue)) :=
  (assembleLine_operands (m := "SELECT_DISPLAY_MODE") (a := a) (as := []) (by decide) (by simp [joinOperands])).trans
    (by simp)

/-- Settles O51: every operand passes its range check and gives what it means. -/
theorem assembledLineIsItsCommand : Obligations.AssembledLineIsItsCommand := by
  refine ⟨?_, ?_, ?_, by decide, assembleLine_comment⟩
  · intro a b d e g x y z w c ha hb hd he hg
    replace ha := AsmOperand.coord_of_means ha
    replace hb := AsmOperand.coord_of_means hb
    replace hd := AsmOperand.coord_of_means hd
    replace he := AsmOperand.coord_of_means he
    replace hg := AsmOperand.colour_of_means hg
    rw [assembleLine_writePixel, assembleLine_drawPixel, assembleLine_writeFastHLine, assembleLine_writeFastVLine,
      assembleLine_writeFillRect, assembleLine_writeLine, ha, hb, hd, he, hg]
    exact ⟨rfl, rfl, rfl, rfl, rfl, rfl⟩
  · intro a v ha
    rw [assembleLine_setRotation, AsmOperand.rotation_of_means ha]
    rfl
  · intro a m ha
    rw [assembleLine_setDisplayMode, assembleLine_selectDisplayMode, AsmOperand.asRead_of_meansMode ha,
      AsmOperand.modeValue_of_means ha]
    exact ⟨rfl, rfl⟩

/-- Settles O52: an operand that fails its range check leaves the line without a command. -/
theorem outOfRangeOperandIsAnAssemblyError : Obligations.OutOfRangeOperandIsAnAssemblyError := by
  simp only [Obligations.OutOfRangeOperandIsAnAssemblyError, List.forall_mem_cons, List.not_mem_nil, false_imp_iff,
    implies_true, and_true,
    assembleLine_writePixel, assembleLine_drawPixel, assembleLine_writeFastHLine, assembleLine_writeFastVLine,
    assembleLine_writeFillRect, assembleLine_writeLine, assembleLine_setRotation, assembleLine_setDisplayMode,
    assembleLine_selectDisplayMode]
  have coord {a : AsmOperand} : a.outsideCoord → a.coord = none := AsmOperand.coord_of_outside
  have colour {g : AsmOperand} : g.outsideColour → g.colour = none := AsmOperand.colour_of_outside
  refine ⟨fun a b g h => ?_, fun a b d g h => ?_, fun a b d e g h => ?_, fun a h => ?_⟩
  · rcases h.imp coord (Or.imp coord colour) with h | h | h <;> simp [h, assembledOf]
  · rcases h.imp coord (Or.imp coord (Or.imp coord colour)) with h | h | h | h <;> simp [h, assembledOf]
  · rcases h.imp coord (Or.imp coord (Or.imp coord (Or.imp coord colour))) with h | h | h | h | h <;>
      simp [h, assembledOf]
  · simp [AsmOperand.rotation_of_outside h, AsmOperand.asRead_of_outsideValue h, AsmOperand.modeValue_of_outside h,
      assembledOf]

/-! ### Listed words and the response word -/

/-- Settles O1, by running the decoder on each of the seven words. -/
theorem listedWordsDecode : Obligations.ListedWordsDecode := by
  refine ⟨?_, ?_, ?_, ?_, ?_, ?_, ?_⟩ <;> decide

/-- Settles O6: STATUS lies above the 32 bits of DATA. -/
theorem responseWordCarriesStatusAndData : Obligations.ResponseWordCarriesStatusAndData := by
  refine ⟨fun r => ⟨?_, ?_⟩, rfl⟩
  · exact BitVec.extractLsb'_append_eq_left
  · exact BitVec.extractLsb'_append_eq_right

end Sys2Proof.Machine

/-! The statements on rotation and display mode (40_mode_rotation.md): the words of the value commands and of the
accessors, what each command does in a ready machine, and that a select clears the new mode's buffer and is
idempotent. -/

namespace Sys2Proof

/-! ### The words of the value commands and of the accessors -/

/-- The word of a command whose one operand is VAL (R42, R45). -/
theorem assembleWord_value (o : Opcode) (v : Value) :
    assembleWord o 0#16 0#16 0#16 (valHigh v) (valLow v) = o.code ++ 0#88 ++ v := by
  have := v.isLt
  apply BitVec.eq_of_toNat_eq
  simp only [assembleWord_toNat, append_toNat, valHigh, valLow, BitVec.extractLsb'_toNat, Nat.shiftRight_eq_div_pow,
    BitVec.toNat_ofNat]
  omega

/-- The word of a command without operands (R42, R46). -/
theorem assembleWord_plain (o : Opcode) : assembleWord o 0#16 0#16 0#16 0#16 0#16 = o.code ++ 0#120 := by
  apply BitVec.eq_of_toNat_eq
  simp only [assembleWord_toNat, append_toNat, BitVec.toNat_ofNat]
  omega

theorem decode_eq_value_iff {cw : CommandWord} {i : Instr} {o : Opcode} {v : Value} (hwf : i.wellFormed = true)
    (hi : encode i = assembleWord o 0#16 0#16 0#16 (valHigh v) (valLow v)) :
    decode cw = .instr i ↔ cw = o.code ++ 0#88 ++ v := by
  rw [decode_eq_instr_iff hwf, hi, assembleWord_value]

theorem decode_eq_plain_iff {cw : CommandWord} {i : Instr} {o : Opcode} (hwf : i.wellFormed = true)
    (hi : encode i = assembleWord o 0#16 0#16 0#16 0#16 0#16) : decode cw = .instr i ↔ cw = o.code ++ 0#120 := by
  rw [decode_eq_instr_iff hwf, hi, assembleWord_plain]

/-! ### The logical dimensions -/

/-- The dimension that a rotation's parity picks fits its register, so the register holds it whole (R5, R17). -/
theorem dimensionOfRotation_toNat {a b : Nat} (ha : a ≤ 32767) (hb : b ≤ 32767) (r : BitVec 2) :
    (BitVec.ofNat 16 (if evenRotation r then a else b)).toNat = if r.toNat % 2 = 0 then a else b := by
  simp only [Machine.evenRotation_eq, decide_eq_true_eq]
  split
  · exact Machine.dimension_toNat ha
  · exact Machine.dimension_toNat hb

theorem Config.logicalWidth_toNat {c : Config} (hc : c.legal) (r : BitVec 2) :
    (c.logicalWidth r).toNat = if r.toNat % 2 = 0 then c.pw else c.ph := by
  obtain ⟨-, hpw, -, -, hph⟩ := hc
  exact dimensionOfRotation_toNat hpw hph r

theorem Config.logicalHeight_toNat {c : Config} (hc : c.legal) (r : BitVec 2) :
    (c.logicalHeight r).toNat = if r.toNat % 2 = 0 then c.ph else c.pw := by
  obtain ⟨-, hpw, -, -, hph⟩ := hc
  exact dimensionOfRotation_toNat hph hpw r

end Sys2Proof

namespace Sys2Proof.Machine

/-! ### Each command in a ready machine -/

section
variable {s : State} (hready : s.init = .ready)
include hready

theorem exec_setRotation_of_ready (v : Value) :
    exec (.setRotation v) s = .next ((s.withRotation (maskedRotation v)).respond .ok 0#32) :=
  whenReady_of_ready hready _

theorem exec_getRotation_of_ready : exec .getRotation s = .next (s.respond .ok (s.rot.setWidth 32)) :=
  whenReady_of_ready hready _

theorem exec_getDisplayMode_of_ready : exec .getDisplayMode s = .next (s.respond .ok s.mode) :=
  whenReady_of_ready hready _

theorem exec_getWidth_of_ready : exec .getWidth s = .next (s.respond .ok (s.lw.setWidth 32)) :=
  whenReady_of_ready hready _

theorem exec_getHeight_of_ready : exec .getHeight s = .next (s.respond .ok (s.lh.setWidth 32)) :=
  whenReady_of_ready hready _

theorem exec_setDisplayMode_of_ready (m : Value) : exec (.setDisplayMode m) s = (assignMode m s).finish :=
  whenReady_of_ready hready _

theorem exec_selectDisplayMode_of_ready (m : Value) : exec (.selectDisplayMode m) s = (selectMode m s).finish :=
  whenReady_of_ready hready _

end

/-! ### Rotation and the accessors -/

/-- The rotation that VAL stands for is odd exactly where VAL is (R45, R55). -/
theorem maskedRotation_parity (v : Value) : (maskedRotation v).toNat % 2 = v.toNat % 2 := by
  rw [maskedRotation_toNat, Nat.mod_mod_of_dvd _ (by decide)]

/-- Settles O24: the three registers are loaded from the masked operand, whose parity is the operand's own. -/
theorem setRotationStoresRotationAndDimensions : Obligations.SetRotationStoresRotationAndDimensions := by
  refine ⟨fun cw v => decode_eq_value_iff (o := .setRotation) rfl rfl, fun s v hlegal hready => ?_⟩
  refine ⟨_, exec_setRotation_of_ready hready v, maskedRotation_toNat v, ?_, ?_, rfl⟩
  · rw [← maskedRotation_parity]
    exact Config.logicalWidth_toNat hlegal _
  · rw [← maskedRotation_parity]
    exact Config.logicalHeight_toNat hlegal _

/-- Settles O25: DATA is the register zero-extended, and the dimensions are those of ROT (R17). -/
theorem accessorsReadTheirRegisters : Obligations.AccessorsReadTheirRegisters := by
  constructor
  · intro cw
    exact ⟨decode_eq_plain_iff (o := .getRotation) rfl rfl, decode_eq_plain_iff (o := .getDisplayMode) rfl rfl,
      decode_eq_plain_iff (o := .getWidth) rfl rfl, decode_eq_plain_iff (o := .getHeight) rfl rfl⟩
  · intro s hlegal ⟨hlw, hlh⟩ hready answers
    have rotation : (s.rot.setWidth 32).toNat = s.rot.toNat := BitVec.toNat_setWidth_of_le (by decide)
    have width : (s.lw.setWidth 32).toNat = s.lw.toNat := BitVec.toNat_setWidth_of_le (by decide)
    have height : (s.lh.setWidth 32).toNat = s.lh.toNat := BitVec.toNat_setWidth_of_le (by decide)
    refine ⟨⟨_, exec_getRotation_of_ready hready, rotation, ?_⟩, exec_getDisplayMode_of_ready hready,
      ⟨_, exec_getWidth_of_ready hready, width, ?_⟩, ⟨_, exec_getHeight_of_ready hready, height, ?_⟩⟩
    · rw [rotation]
      exact Nat.le_of_lt_succ s.rot.isLt
    · rw [width, hlw, Config.logicalWidth_toNat hlegal]
    · rw [height, hlh, Config.logicalHeight_toNat hlegal]

/-- Settles O26: SET_ROTATION leaves the machine ready with the masked operand in ROT, which GET_ROTATION reads. -/
theorem getRotationReadsTheMaskedValue : Obligations.GetRotationReadsTheMaskedValue := by
  intro s v hready
  refine ⟨_, _, (maskedRotation v).setWidth 32, exec_setRotation_of_ready hready v,
    exec_getRotation_of_ready (by simpa using hready), ?_, ?_⟩
  · rw [BitVec.toNat_setWidth_of_le (by decide), maskedRotation_toNat]
  · simp

/-! ### Mode validity -/

theorem toInt_eq_neg_one_iff (m : Value) : m.toInt = -1 ↔ m = modeUninit := BitVec.toInt_inj (y := modeUninit)
theorem toInt_eq_one_iff (m : Value) : m.toInt = 1 ↔ m = modeMono := BitVec.toInt_inj (y := modeMono)
theorem toInt_eq_three_iff (m : Value) : m.toInt = 3 ↔ m = modeGray := BitVec.toInt_inj (y := modeGray)

/-- `valid(m)` of R57, with the three modes as signed numbers (R18). -/
theorem validMode_iff_toInt (p : ModePolicy) (m : Value) :
    validMode p m = true ↔ p = .permissive ∨ m.toInt = -1 ∨ m.toInt = 1 ∨ m.toInt = 3 := by
  rw [validMode_iff, toInt_eq_neg_one_iff, toInt_eq_one_iff, toInt_eq_three_iff]

/-- A mode that is not valid takes the STRICT policy and a value outside the closed set (R57). -/
theorem validMode_eq_false {p : ModePolicy} {m : Value}
    (h : p = .strict ∧ m.toInt ≠ -1 ∧ m.toInt ≠ 1 ∧ m.toInt ≠ 3) : validMode p m = false := by
  obtain ⟨rfl, hmodes⟩ := h
  rw [← Bool.not_eq_true, validMode_iff_toInt]
  simpa using hmodes

/-! ### SET_DISPLAY_MODE -/

theorem assignMode_of_valid {s : State} {m : Value} (h : validMode s.cfg.modePolicy m = true) :
    assignMode m s = .go (s.withMode m) := by
  simpa [h] using assignMode_cases m s

theorem assignMode_of_invalid {s : State} {m : Value} (h : validMode s.cfg.modePolicy m = false) :
    assignMode m s = .raised .invalidMode m s := by
  simpa [h] using assignMode_cases m s

/-- Settles O27: MODE is written where R57 allows the operand, and INVALID_MODE is raised where it does not. -/
theorem setDisplayModeAssignsWithoutClearing : Obligations.SetDisplayModeAssignsWithoutClearing := by
  refine ⟨fun cw m => decode_eq_value_iff (o := .setDisplayMode) rfl rfl, fun s m hready => ?_⟩
  rw [exec_setDisplayMode_of_ready hready]
  refine ⟨fun hvalid => ?_, fun hinvalid => ?_⟩
  · rw [assignMode_of_valid ((validMode_iff_toInt _ _).mpr hvalid)]
    rfl
  · rw [assignMode_of_invalid (validMode_eq_false hinvalid)]
    rfl

/-! ### SELECT_DISPLAY_MODE -/

/-- `s` after a select of another mode whose clear the driver completes: MODE written and the new mode's buffer filled
with its clear byte (R33, R59). -/
def State.selected (s : State) (m : Value) : State :=
  State.withBuffer { s.withMode m with pdServes := servesLeft s.pdServes }
    (Memory.filled (s.bufferSize (bufferOfMode m)) (Config.clearFill s.cfg (bufferOfMode m))) (bufferOfMode m)

theorem selectMode_current {s : State} {m : Value} (h : validMode s.cfg.modePolicy m = true) (hmode : m = s.mode) :
    selectMode m s = .go s := by
  subst hmode
  simpa [h] using selectMode_cases s.mode s

theorem selectMode_of_change {s : State} {m : Value} (h : validMode s.cfg.modePolicy m = true) (hne : m ≠ s.mode)
    (hserves : s.driverServes) : selectMode m s = .go (s.selected m) := by
  have hclear : selectMode m s = clearBuffer (bufferOfMode m) (s.withMode m) := by
    simpa [h, hne] using selectMode_cases m s
  rcases clearBuffer_cases (bufferOfMode m) (s.withMode m) with ⟨-, e⟩ | ⟨hsilent, -⟩
  · exact hclear.trans e
  · exact absurd hsilent hserves

theorem selectMode_of_invalid {s : State} {m : Value} (h : validMode s.cfg.modePolicy m = false) :
    selectMode m s = .raised .invalidMode m s := by
  simpa [h] using selectMode_cases m s

/-- The frame of a select: MODE, the buffers and the driver's count. -/
theorem State.selected_frame (s : State) (m : Value) : s.selected m =
    { s with mode := m, mb := (s.selected m).mb, gb := (s.selected m).gb, pdServes := servesLeft s.pdServes } := by
  unfold State.selected
  cases bufferOfMode m <;> rfl

@[simp] theorem State.selected_cfg (s : State) (m : Value) : (s.selected m).cfg = s.cfg := by simp [State.selected]
@[simp] theorem State.selected_init (s : State) (m : Value) : (s.selected m).init = s.init := by simp [State.selected]
@[simp] theorem State.selected_mode (s : State) (m : Value) : (s.selected m).mode = m := by simp [State.selected]

/-- A select of mode 1 clears MB and leaves GB (R59). -/
theorem State.selected_mono (s : State) : (s.selected modeMono).gb = s.gb ∧
    (s.selected modeMono).mb = Memory.filled s.cfg.msize s.cfg.clearFillMono := ⟨rfl, rfl⟩

/-- A select of any other mode clears GB and leaves MB (R59). -/
theorem State.selected_other (s : State) {m : Value} (h : m ≠ modeMono) : (s.selected m).mb = s.mb ∧
    (s.selected m).gb = Memory.filled s.cfg.gsize s.cfg.clearFillGray := by
  rw [State.selected, (bufferOfMode_eq_gray_iff m).mpr h]
  exact ⟨rfl, rfl⟩

/-- A buffer that a clear filled is canonical and holds the fill in every byte (R25, R33). -/
theorem Memory.wf_read_of_eq_filled {size : Nat} {v : Byte} {m : Memory} (h : m = Memory.filled size v) :
    m.wf size = true ∧ ∀ i < size, m.read i = v := by
  subst h
  exact ⟨Memory.filled_wf size v, fun i hi => Memory.read_filled v hi⟩

/-- A select of the mode that the machine is in does nothing but answer (R59). -/
theorem exec_selectDisplayMode_current {s : State} {m : Value} (hready : s.init = .ready)
    (h : validMode s.cfg.modePolicy m = true) (hmode : m = s.mode) :
    exec (.selectDisplayMode m) s = .next (s.respond .ok 0#32) := by
  rw [exec_selectDisplayMode_of_ready hready, selectMode_current h hmode, Effect.finish_go]

/-- Settles O28: the three arms of R59; after a change the machine is in the new mode, so the same select again is the
first arm. -/
theorem selectDisplayModeClearsTheNewBuffer : Obligations.SelectDisplayModeClearsTheNewBuffer := by
  constructor
  · intro cw m
    exact decode_eq_value_iff (o := .selectDisplayMode) rfl rfl
  intro s m hready answered valid
  have valid_iff : validMode s.cfg.modePolicy m = true ↔ valid := validMode_iff_toInt _ _
  rw [← valid_iff]
  refine ⟨fun hvalid hmode => exec_selectDisplayMode_current hready hvalid hmode, fun hvalid hne hserves => ?_,
    fun hinvalid => ?_⟩
  · refine ⟨(s.selected m).respond .ok 0#32, ?_, ?_, fun hm => ?_, fun hm => ?_, ?_⟩
    · rw [exec_selectDisplayMode_of_ready hready, selectMode_of_change hvalid hne hserves, Effect.finish_go]
    · exact congrArg (State.respond .ok 0#32) (s.selected_frame m)
    · obtain rfl := (toInt_eq_one_iff m).mp hm
      obtain ⟨hgb, hmb⟩ := s.selected_mono
      exact ⟨hgb, Memory.wf_read_of_eq_filled hmb⟩
    · obtain ⟨hmb, hgb⟩ := s.selected_other (mt (toInt_eq_one_iff m).mpr hm)
      exact ⟨hmb, Memory.wf_read_of_eq_filled hgb⟩
    · exact exec_selectDisplayMode_current (by simpa using hready) (by simpa using hvalid) (by simp)
  · rw [exec_selectDisplayMode_of_ready hready, selectMode_of_invalid (Bool.eq_false_iff.mpr hinvalid)]
    rfl

end Sys2Proof.Machine

/-! The statements on the pixel write (41_pixel_write.md): the translator as a bijection onto the panel, what a pixel
command answers in each case of WritePixel, and the one bit or nibble that a pixel on the panel changes. -/

namespace Sys2Proof.Machine

/-! ### The translator -/

@[simp] theorem rotatePixel_zero (w h x y : Int) : rotatePixel 0#2 w h x y = (x, y) := rfl
@[simp] theorem rotatePixel_one (w h x y : Int) : rotatePixel 1#2 w h x y = (h - 1 - y, x) := rfl
@[simp] theorem rotatePixel_two (w h x y : Int) : rotatePixel 2#2 w h x y = (w - 1 - x, h - 1 - y) := rfl
@[simp] theorem rotatePixel_three (w h x y : Int) : rotatePixel 3#2 w h x y = (y, w - 1 - x) := rfl

/-- A rotation loses nothing, whatever dimensions its formulas name (R64). -/
theorem rotatePixel_inj {r : BitVec 2} {w h x y x' y' : Int} (e : rotatePixel r w h x y = rotatePixel r w h x' y') :
    x = x' ∧ y = y' := by
  rcases rotation_cases r with rfl | rfl | rfl | rfl <;>
    simp only [rotatePixel_zero, rotatePixel_one, rotatePixel_two, rotatePixel_three, Prod.mk.injEq] at e <;>
    omega

/-- Every coordinate pair is the image of the one that the inverse formulas give (R64). -/
theorem exists_rotatePixel_eq (r : BitVec 2) (w h : Int) (p : Pixel) : ∃ x y, rotatePixel r w h x y = p := by
  obtain ⟨x0, y0⟩ := p
  rcases rotation_cases r with rfl | rfl | rfl | rfl
  · exact ⟨x0, y0, rfl⟩
  · exact ⟨y0, h - 1 - x0, by simp⟩
  · exact ⟨w - 1 - x0, h - 1 - y0, by simp⟩
  · exact ⟨w - 1 - y0, x0, by simp⟩

section
variable {s : State} (hlegal : s.cfg.legal) (hdims : s.dimsAgree)
include hlegal hdims

/-- The logical registers hold the panel's own dimensions, swapped at an odd rotation (R17). -/
theorem State.dims_toNat : s.lw.toNat = (if s.rot.toNat % 2 = 0 then s.cfg.pw else s.cfg.ph) ∧
    s.lh.toNat = (if s.rot.toNat % 2 = 0 then s.cfg.ph else s.cfg.pw) := by
  obtain ⟨hlw, hlh⟩ := hdims
  rw [hlw, hlh]
  exact ⟨Config.logicalWidth_toNat hlegal _, Config.logicalHeight_toNat hlegal _⟩

/-- Each rotation takes the logical rectangle, and nothing outside it, to the panel (R65; 90_conflicts.md C5). -/
theorem State.inBounds_eq_onPanel_xlate (x y : Int) : s.inBounds x y = Config.onPanel s.cfg (s.xlate x y) := by
  obtain ⟨hlw, hlh⟩ := State.dims_toNat hlegal hdims
  rw [Bool.eq_iff_iff, State.inBounds_iff, Config.onPanel_iff, State.xlate, hlw, hlh]
  rcases rotation_cases s.rot with hr | hr | hr | hr <;> rw [hr] <;> simp <;> omega

/-- On a square panel LW, LH, PW and PH are one number, so both readings name the same formulas (R66). -/
theorem State.xlateLit_eq_xlate (hsquare : s.cfg.pw = s.cfg.ph) (x y : Int) : s.xlateLit x y = s.xlate x y := by
  obtain ⟨hlw, hlh⟩ := State.dims_toNat hlegal hdims
  rw [hsquare, ite_self] at hlw hlh
  rw [State.xlateLit, State.xlate, hlw, hlh, hsquare]

end

/-- A pair on the panel is a pair of natural numbers below PW and PH. -/
theorem Config.exists_nat_of_onPanel {c : Config} {p : Pixel} (h : Config.onPanel c p = true) :
    ∃ x0 y0 : Nat, p = ((x0 : Int), (y0 : Int)) ∧ x0 < c.pw ∧ y0 < c.ph := by
  obtain ⟨⟨hx0, hx⟩, hy0, hy⟩ := (Config.onPanel_iff c p).mp h
  exact ⟨p.1.toNat, p.2.toNat, Prod.ext (by simp [hx0]) (by simp [hy0]), by omega, by omega⟩

theorem Config.onPanel_natCast {c : Config} {x0 y0 : Nat} (hx : x0 < c.pw) (hy : y0 < c.ph) :
    Config.onPanel c ((x0 : Int), (y0 : Int)) = true := by
  simp [hx, hy]

theorem State.physical_literal {s : State} (h : s.cfg.rotVariant = .literal) (x y : Int) :
    s.physical x y = s.xlateLit x y := by
  simp [State.physical, h]

/-- Settles O34: the two checks agree rotation by rotation. -/
theorem boundsCheckCommutesWithTranslation : Obligations.BoundsCheckCommutesWithTranslation := by
  intro s x y hlegal hdims
  exact State.inBounds_eq_onPanel_xlate hlegal hdims x y

/-- Settles O33: a rotation is a bijection of all pairs, and takes exactly the in-bounds ones to the panel. -/
theorem translatorIsABijectionOntoThePanel : Obligations.TranslatorIsABijectionOntoThePanel := by
  intro s hlegal hdims
  refine ⟨fun x y hin => ?_, fun x y x' y' => rotatePixel_inj, fun x0 y0 hx hy => ?_⟩
  · rw [State.inBounds_eq_onPanel_xlate hlegal hdims] at hin
    obtain ⟨x0, y0, hp, hx, hy⟩ := Config.exists_nat_of_onPanel hin
    exact ⟨x0, y0, hp, hx, hy, Config.mbyte_lt hlegal hx hy, Config.gbyte_lt hlegal hx hy⟩
  · obtain ⟨x, y, hp⟩ : ∃ x y, s.xlate x y = ((x0 : Int), (y0 : Int)) := exists_rotatePixel_eq _ _ _ _
    refine ⟨x, y, ?_, hp⟩
    rw [State.inBounds_eq_onPanel_xlate hlegal hdims, hp]
    exact Config.onPanel_natCast hx hy

/-- Settles O35: the literal image of an in-bounds pixel is its logical image, which is on the panel. -/
theorem variantsAgreeOnASquarePanel : Obligations.VariantsAgreeOnASquarePanel := by
  intro s x y hlegal hdims hsquare
  have heq := State.xlateLit_eq_xlate hlegal hdims hsquare x y
  refine ⟨heq, fun hin => ?_⟩
  rw [State.inBounds_eq_onPanel_xlate hlegal hdims, ← heq] at hin
  by_cases hv : s.cfg.rotVariant = .literal
  · simp [State.fallsOff, State.physical_literal hv, hin]
  · simp [State.fallsOff, hv]

/-! ### The pixel commands in a ready machine -/

/-- Both pixel commands are WritePixel and its answer (R71, R72). -/
theorem exec_pixelCommand_of_ready {s : State} (hready : s.init = .ready) {x y : Int} {c : Colour} {i : Instr}
    (hi : i ∈ [Instr.writePixel x y c, .drawPixel x y c]) : exec i s = (pixelWrite x y c s).finish := by
  have hexec : exec i s = whenReady s (pixelWrite x y c s).finish := by
    rcases List.mem_pair.mp hi with rfl | rfl <;> rfl
  rw [hexec, whenReady_of_ready hready]

/-! ### A pixel that is not written -/

theorem pixelWrite_of_outOfBounds {s : State} {x y : Int} (h : s.inBounds x y = false) (c : Colour) :
    pixelWrite x y c s = .go s := by
  simpa [h] using pixelWrite_cases x y c s

theorem pixelWrite_of_fallsOff {s : State} {x y : Int} (hin : s.inBounds x y = true) (hoff : s.fallsOff x y = true)
    (c : Colour) : pixelWrite x y c s = .raised .physOutOfRange (physInfo (s.physical x y)) s := by
  simpa [hin, hoff] using pixelWrite_cases x y c s

/-- Settles O29: a pixel past one of the four sides fails the bounds check, so WritePixel goes on with no change. -/
theorem outOfBoundsPixelIsDiscarded : Obligations.OutOfBoundsPixelIsDiscarded := by
  intro s x y c
  refine ⟨State.inBounds_iff s x y, fun hside => ?_⟩
  have hout : s.inBounds x y = false := by
    rw [← Bool.not_eq_true, State.inBounds_iff]
    omega
  refine ⟨pixelWrite_of_outOfBounds hout c, fun hready i hi => ?_⟩
  rw [exec_pixelCommand_of_ready hready hi, pixelWrite_of_outOfBounds hout]
  rfl

/-- The halves of PHYS_OUT_OF_RANGE's DATA: y0 above x0, each modulo 2^16 (R95). -/
theorem physInfo_halves (p : Pixel) : (((physInfo p).toNat / 2 ^ 16 : Nat) : Int) = p.2 % 2 ^ 16 ∧
    (((physInfo p).toNat % 2 ^ 16 : Nat) : Int) = p.1 % 2 ^ 16 := by
  simp only [physInfo, append_toNat, BitVec.toNat_ofInt]
  omega

/-- Settles O32: under LITERAL a transform off the panel is what the range check stops, before MODE is read. -/
theorem pixelOffThePanelIsAnsweredOutOfRange : Obligations.PixelOffThePanelIsAnsweredOutOfRange := by
  rintro s x y c hready hliteral hin ⟨p, rfl, hside⟩
  have hphys := State.physical_literal hliteral x y
  have hoff : s.fallsOff x y = true := by
    have hpanel : Config.onPanel s.cfg (s.xlateLit x y) = false := by
      rw [← Bool.not_eq_true, Config.onPanel_iff]
      omega
    simp [State.fallsOff, hliteral, hphys, hpanel]
  obtain ⟨hhigh, hlow⟩ := physInfo_halves (s.xlateLit x y)
  refine ⟨physInfo (s.xlateLit x y), hhigh, hlow, fun i hi => ?_⟩
  rw [exec_pixelCommand_of_ready hready hi, pixelWrite_of_fallsOff hin hoff, hphys]
  rfl

/-! ### A pixel on the panel -/

/-- `s` with the panel pixel (x0, y0) drawn in colour `c`: one byte of the mode's buffer packed again (R67 to R69). -/
def State.plotted (s : State) (x0 y0 : Nat) (c : Colour) : State :=
  if s.mode = modeMono then
    s.memWrite .mono (s.cfg.mbyte x0 y0) (packMono x0 c (s.mb.read (s.cfg.mbyte x0 y0)))
  else if s.mode = modeGray then
    s.memWrite .gray (s.cfg.gbyte x0 y0) (packGray x0 c (s.gb.read (s.cfg.gbyte x0 y0)))
  else s

theorem State.plotted_mono {s : State} (h : s.mode = modeMono) (x0 y0 : Nat) (c : Colour) :
    s.plotted x0 y0 c = s.memWrite .mono (s.cfg.mbyte x0 y0) (packMono x0 c (s.mb.read (s.cfg.mbyte x0 y0))) :=
  if_pos h

theorem State.plotted_gray {s : State} (h : s.mode = modeGray) (x0 y0 : Nat) (c : Colour) :
    s.plotted x0 y0 c = s.memWrite .gray (s.cfg.gbyte x0 y0) (packGray x0 c (s.gb.read (s.cfg.gbyte x0 y0))) := by
  simp [State.plotted, h, show modeGray ≠ modeMono by decide]

theorem State.plotted_other {s : State} (h : s.mode ≠ modeMono) (h' : s.mode ≠ modeGray) (x0 y0 : Nat) (c : Colour) :
    s.plotted x0 y0 c = s := by
  simp [State.plotted, h, h']

/-- A plotted pixel changes the buffer of the mode alone (R74). -/
theorem State.drawnTo_plotted (s : State) (x0 y0 : Nat) (c : Colour) : s.drawnTo (s.plotted x0 y0 c) := by
  by_cases hmono : s.mode = modeMono
  · rw [State.plotted_mono hmono]
    exact ⟨rfl, fun h => absurd hmono h, fun _ => rfl⟩
  · by_cases hgray : s.mode = modeGray
    · rw [State.plotted_gray hgray]
      exact ⟨rfl, fun _ => rfl, fun h => absurd hgray h⟩
    · rw [State.plotted_other hmono hgray]
      exact State.drawnTo_refl s

/-- The dispatch of a pixel on the panel finds its byte, in whichever buffer (R65, R67). -/
theorem dispatchPixel_eq_plotted {s : State} (hlegal : s.cfg.legal) {x0 y0 : Nat} (hx : x0 < s.cfg.pw)
    (hy : y0 < s.cfg.ph) (c : Colour) : dispatchPixel ((x0 : Int), (y0 : Int)) c s = .go (s.plotted x0 y0 c) := by
  by_cases hmono : s.mode = modeMono
  · rw [dispatchPixel_mono hmono, State.plotted_mono hmono]
    exact modifyByte_of_lt (Config.mbyte_lt hlegal hx hy) _
  · by_cases hgray : s.mode = modeGray
    · rw [dispatchPixel_gray hgray, State.plotted_gray hgray]
      exact modifyByte_of_lt (Config.gbyte_lt hlegal hx hy) _
    · rw [dispatchPixel_other hmono hgray, State.plotted_other hmono hgray]

/-- In a state of the invariant WritePixel draws an in-bounds pixel that passes the range check, and it lies on the
panel (R65, R70). -/
theorem pixelWrite_eq_plotted {s : State} (hs : s.inv) {x y : Int} (hin : s.inBounds x y = true)
    (hoff : s.fallsOff x y = false) : ∃ x0 y0 : Nat, s.physical x y = ((x0 : Int), (y0 : Int)) ∧ x0 < s.cfg.pw ∧
      y0 < s.cfg.ph ∧ ∀ c, pixelWrite x y c s = .go (s.plotted x0 y0 c) := by
  obtain ⟨x0, y0, hphys, hx, hy⟩ := Config.exists_nat_of_onPanel (State.physical_onPanel hs hin hoff)
  obtain ⟨hlegal, -⟩ := hs
  refine ⟨x0, y0, hphys, hx, hy, fun c => ?_⟩
  rw [← dispatchPixel_eq_plotted hlegal hx hy, ← hphys]
  simpa [hin, hoff] using pixelWrite_cases x y c s

/-- Both pixel commands then answer OK from the plotted state (R71, R72). -/
theorem exec_pixelCommand_eq_plotted {s : State} (hs : s.inv) (hready : s.init = .ready) {x y : Int}
    (hin : s.inBounds x y = true) (hoff : s.fallsOff x y = false) :
    ∃ x0 y0 : Nat, s.physical x y = ((x0 : Int), (y0 : Int)) ∧
      ∀ c, ∀ i ∈ [Instr.writePixel x y c, .drawPixel x y c],
        exec i s = .next ((s.plotted x0 y0 c).respond .ok 0#32) := by
  obtain ⟨x0, y0, hphys, -, -, hwrite⟩ := pixelWrite_eq_plotted hs hin hoff
  refine ⟨x0, y0, hphys, fun c i hi => ?_⟩
  rw [exec_pixelCommand_of_ready hready hi, hwrite, Effect.finish_go]

/-- The pixel's own bit in MODE 1 (R76). -/
theorem State.mPix_plotted {s : State} (hmb : s.mb.wf s.cfg.msize = true) (h : s.mode = modeMono) (x0 y0 : Nat)
    (c : Colour) : (s.plotted x0 y0 c).mPix x0 y0 = if c = 0#16 then 0#8 else 1#8 := by
  simp [State.mPix, State.memRead, State.plotted_mono h, Memory.read_write_same hmb, monoPixelOf_packMono_self]

/-- The pixel's own level and reserved bit in MODE 3 (R29, R76). -/
theorem State.gPix_plotted {s : State} (hgb : s.gb.wf s.cfg.gsize = true) (h : s.mode = modeGray) (x0 y0 : Nat)
    (c : Colour) : (s.plotted x0 y0 c).gPix x0 y0 = (c &&& 7#16).setWidth 8 ∧ (s.plotted x0 y0 c).gRsv x0 y0 = 0#8 := by
  simp [State.gPix, State.gRsv, State.memRead, State.plotted_gray h, Memory.read_write_same hgb,
    grayPixelOf_packGray_self]

/-- The level of a colour as a number (R44). -/
theorem level_toNat (c : Colour) : ((c &&& 7#16).setWidth 8).toNat = c.toNat % 8 := by
  rw [colour_and_seven, BitVec.toNat_setWidth, BitVec.toNat_ofNat]
  omega

/-- Settles O30: the command's next state is the plotted one, whose own pixel reads as the packers leave it. -/
theorem writtenPixelReadsBack : Obligations.WrittenPixelReadsBack := by
  intro s x y c hs hready hin hoff i hi
  obtain ⟨x0, y0, hphys, hexec⟩ := exec_pixelCommand_eq_plotted hs hready hin hoff
  obtain ⟨-, -, ⟨hmb, hgb⟩, -⟩ := hs
  obtain ⟨hregisters, -⟩ := s.drawnTo_plotted x0 y0 c
  refine ⟨_, x0, y0, hexec c i hi, ?_, hphys, fun hmode => ?_, fun hmode => ?_⟩
  · rw [State.respond_responses, hregisters]
  · exact State.mPix_plotted hmb ((toInt_eq_one_iff _).mp hmode) x0 y0 c
  · obtain ⟨hlevel, hreserved⟩ := State.gPix_plotted hgb ((toInt_eq_three_iff _).mp hmode) x0 y0 c
    exact ⟨(congrArg BitVec.toNat hlevel).trans (level_toNat c), hreserved⟩

/-! ### What a plotted pixel leaves as it was -/

/-- In MODE 1 every byte of MB but the pixel's own, and every bit of that byte but mbit(x0) (R68, R74). -/
theorem State.plotted_mono_frame {s : State} (hmb : s.mb.wf s.cfg.msize = true) (h : s.mode = modeMono) (x0 y0 : Nat)
    (c : Colour) : (∀ a, a ≠ s.cfg.mbyte x0 y0 → (s.plotted x0 y0 c).mb.read a = s.mb.read a) ∧
      ∀ k, k ≠ mbit x0 → ((s.plotted x0 y0 c).mb.read (s.cfg.mbyte x0 y0)).getLsbD k =
        (s.mb.read (s.cfg.mbyte x0 y0)).getLsbD k := by
  rw [State.plotted_mono h, State.memWrite_mono_mb]
  refine ⟨fun a ha => Memory.read_write_of_ne hmb ha.symm _, fun k hk => ?_⟩
  rw [Memory.read_write_same hmb, packMono_getLsbD_of_ne hk]

/-- In MODE 3 every byte of GB but the pixel's own, and the other nibble of that byte (R69, R74). -/
theorem State.plotted_gray_frame {s : State} (hgb : s.gb.wf s.cfg.gsize = true) (h : s.mode = modeGray) (x0 y0 : Nat)
    (c : Colour) : (∀ a, a ≠ s.cfg.gbyte x0 y0 → (s.plotted x0 y0 c).gb.read a = s.gb.read a) ∧
      ∀ k, (if x0 % 2 = 0 then k < 4 else 4 ≤ k) → ((s.plotted x0 y0 c).gb.read (s.cfg.gbyte x0 y0)).getLsbD k =
        (s.gb.read (s.cfg.gbyte x0 y0)).getLsbD k := by
  rw [State.plotted_gray h, State.memWrite_gray_gb]
  refine ⟨fun a ha => Memory.read_write_of_ne hgb ha.symm _, fun k hk => ?_⟩
  rw [Memory.read_write_same hgb, packGray_getLsbD_of_ne hk]

/-- Settles O31: the frame of drawing gives the registers and the other buffer, the packers' frames the rest. -/
theorem pixelCommandChangesOnlyItsPixel : Obligations.PixelCommandChangesOnlyItsPixel := by
  intro s x y c hs hready hin hoff px py i hi
  obtain ⟨x0, y0, hphys, hexec⟩ := exec_pixelCommand_eq_plotted hs hready hin hoff
  obtain rfl : px = x0 := congrArg (fun p : Pixel => p.1.toNat) hphys
  obtain rfl : py = y0 := congrArg (fun p : Pixel => p.2.toNat) hphys
  obtain ⟨-, -, ⟨hmb, hgb⟩, -⟩ := hs
  obtain ⟨hregisters, hmbKept, hgbKept⟩ := s.drawnTo_plotted px py c
  refine ⟨_, hexec c i hi, ?_, fun hmode => ?_, fun hmode => ?_, fun hmono hgray => ?_⟩
  · exact congrArg (State.respond .ok 0#32) hregisters
  · exact ⟨hgbKept (by rw [hmode]; decide), State.plotted_mono_frame hmb hmode px py c⟩
  · exact ⟨hmbKept (by rw [hmode]; decide), State.plotted_gray_frame hgb hmode px py c⟩
  · exact ⟨hmbKept hmono, hgbKept hgray⟩

end Sys2Proof.Machine

/-! The statements on the derived primitives (42_primitives.md): a rectangle's and a line's pixel list in closed form,
that a primitive paints the pixels of its list one by one up to the first that falls off the panel, that their order
does not matter under LOGICAL, and the brackets. -/

namespace Sys2Proof.Machine

/-! ### The pixel list of a rectangle -/

/-- Place j·w + i of a row-major list lies in row j. -/
theorem place_div {w i : Nat} (hi : i < w) (j : Nat) : (j * w + i) / w = j := by
  rw [Nat.mul_comm, Nat.mul_add_div (Nat.zero_lt_of_lt hi), Nat.div_eq_of_lt hi, Nat.add_zero]

/-- Place j·w + i of a row-major list lies in column i. -/
theorem place_mod {w i : Nat} (hi : i < w) (j : Nat) : (j * w + i) % w = i := by
  rw [Nat.mul_add_mod_self_right, Nat.mod_eq_of_lt hi]

/-- The rows of a rectangle one below the other, as one list: place k holds column k mod w of row k / w (R78). -/
theorem flatMap_rowPixels (x y : Int) (w n : Nat) :
    ((List.range n).flatMap fun j : Nat => rowPixels x (y + j) w) =
      (List.range (n * w)).map fun k => (x + (k % w : Nat), y + (k / w : Nat)) := by
  induction n with
  | zero => simp
  | succ n ih =>
    rw [List.range_succ, List.flatMap_append, ih, Nat.succ_mul, List.range_add, List.map_append, List.map_map]
    congr 1
    simp only [List.flatMap_singleton, rowPixels]
    refine List.map_congr_left fun i hi => ?_
    have hi : i < w := List.mem_range.mp hi
    rw [Function.comp_apply, place_div hi, place_mod hi]

theorem rectPixels_of_empty {w h : Int} (hempty : w ≤ 0 ∨ h ≤ 0) (x y : Int) : rectPixels x y w h = [] :=
  if_pos hempty

/-- A rectangle that is not empty, in closed form. -/
theorem rectPixels_eq_map {w h : Int} (hw : 0 < w) (hh : 0 < h) (x y : Int) :
    rectPixels x y w h =
      (List.range (h.toNat * w.toNat)).map fun k => (x + (k % w.toNat : Nat), y + (k / w.toNat : Nat)) := by
  rw [rectPixels, if_neg (by omega), flatMap_rowPixels]

/-- The pixels of a rectangle are the coordinates within its sides (R78). -/
theorem mem_rectPixels {x y w h px py : Int} :
    (px, py) ∈ rectPixels x y w h ↔ (x ≤ px ∧ px < x + w) ∧ (y ≤ py ∧ py < y + h) := by
  by_cases hempty : w ≤ 0 ∨ h ≤ 0
  · rw [rectPixels_of_empty hempty]
    simp only [List.not_mem_nil, false_iff]
    omega
  · simp only [rectPixels, if_neg hempty, rowPixels, List.mem_flatMap, List.mem_map, List.mem_range, Prod.mk.injEq]
    constructor
    · rintro ⟨j, hj, i, hi, rfl, rfl⟩
      omega
    · rintro ⟨⟨hx, hx'⟩, hy, hy'⟩
      exact ⟨(py - y).toNat, by omega, (px - x).toNat, by omega, by omega, by omega⟩

theorem exec_writeFillRect_of_ready {s : State} (hready : s.init = .ready) (x y w h : Int) (c : Colour) :
    exec (.writeFillRect x y w h c) s = (expand c (rectPixels x y w h) s).finish :=
  whenReady_of_ready hready _

/-- Settles O36: the closed form of the list gives its length, its places, and that no pixel comes twice, since a place
is fixed by its row and column. -/
theorem rectanglePixelsAreRowMajor : Obligations.RectanglePixelsAreRowMajor := by
  intro x y w h
  refine ⟨fun hempty => ⟨rectPixels_of_empty hempty x y, fun s c hready => ?_⟩, fun hw hh => ?_⟩
  · rw [exec_writeFillRect_of_ready hready, rectPixels_of_empty hempty]
    rfl
  · rw [rectPixels_eq_map hw hh]
    refine ⟨?_, List.nodup_range.map fun k k' hkk' => ?_, fun i j hi hj => ?_⟩
    · rw [List.length_map, List.length_range, Nat.cast_mul, Int.toNat_of_nonneg hw.le, Int.toNat_of_nonneg hh.le,
        mul_comm]
    · obtain ⟨hmod, hdiv⟩ := Prod.mk.inj hkk'
      rw [← Nat.div_add_mod k w.toNat, ← Nat.div_add_mod k' w.toNat, show k / w.toNat = k' / w.toNat by omega,
        show k % w.toNat = k' % w.toNat by omega]
    · have hi : i < w.toNat := by omega
      have hplace : j * w.toNat + i < h.toNat * w.toNat := by
        calc j * w.toNat + i < j * w.toNat + w.toNat := by omega
          _ = (j + 1) * w.toNat := by ring
          _ ≤ h.toNat * w.toNat := Nat.mul_le_mul_right _ (by omega)
      rw [List.getElem?_map, List.getElem?_range hplace, Option.map_some, place_div hi, place_mod hi]

/-! ### The pixel list of a line -/

/-- Pixel k of the loop's list for a line from (xa, ya) to (xb, yb): k along the line's direction, and across it as far
as the error accumulator has stepped (R82). -/
def linePoint (steep : Bool) (xa ya xb yb : Int) (k : Nat) : Pixel :=
  linePixel steep (xa + k) (ya + (yb - ya).sign * ((k * |yb - ya| + (xb - xa - 1) / 2) / (xb - xa)))

@[simp] theorem linePixel_inj {steep : Bool} {x y x' y' : Int} :
    linePixel steep x y = linePixel steep x' y' ↔ x = x' ∧ y = y' := by
  cases steep <;> simp [linePixel, and_comm]

/-- The loop in closed form: from an accumulator `err` in [0, dx) it has stepped across ⌈(k·dy - err)/dx⌉ times after k
rounds, which keeps err - k·dy + dx·steps in [0, dx) (R82). -/
theorem lineLoop_eq_map {steep : Bool} {dx dy ystep : Int} (hdy : 0 ≤ dy) (hle : dy ≤ dx) (n : Nat) (x y err : Int)
    (herr : 0 ≤ err) (herr' : err < dx) : lineLoop steep dx dy ystep n x y err =
      (List.range n).map fun k : Nat => linePixel steep (x + k) (y + ystep * ((k * dy + (dx - 1 - err)) / dx)) := by
  induction n generalizing x y err with
  | zero => rfl
  | succ n ih =>
    rw [lineLoop, List.range_succ_eq_map, List.map_cons, List.map_map]
    have hfirst : (dx - 1 - err) / dx = 0 := Int.ediv_eq_zero_of_lt (by omega) (by omega)
    refine congrArg₂ _ (by simp [hfirst]) ?_
    split
    · rw [ih _ _ _ (by omega) (by omega)]
      refine List.map_congr_left fun k _ => ?_
      have hstep : ((k + 1 : Nat) * dy + (dx - 1 - err)) = k * dy + (dx - 1 - (err - dy + dx)) + 1 * dx := by
        push_cast
        ring
      rw [Function.comp_apply, hstep, Int.add_mul_ediv_right _ _ (by omega), linePixel_inj]
      push_cast
      exact ⟨by ring, by ring⟩
    · rw [ih _ _ _ (by omega) (by omega)]
      refine List.map_congr_left fun k _ => ?_
      have hstay : ((k + 1 : Nat) * dy + (dx - 1 - err)) = k * dy + (dx - 1 - (err - dy)) := by
        push_cast
        ring
      rw [Function.comp_apply, hstay, linePixel_inj]
      push_cast
      exact ⟨by ring, rfl⟩

/-- Adding ⌊(d - 1)/2⌋ before dividing by d rounds to a nearest multiple of d. -/
theorem two_mul_abs_rounded_sub_le (m : Int) {d : Int} (hd : 0 < d) : 2 * |(m + (d - 1) / 2) / d * d - m| ≤ d := by
  have hlow := Int.ediv_mul_le (m + (d - 1) / 2) hd.ne'
  have hhigh := Int.lt_ediv_add_one_mul_self (m + (d - 1) / 2) hd
  rw [add_mul, one_mul] at hhigh
  rcases abs_cases ((m + (d - 1) / 2) / d * d - m) with ⟨habs, -⟩ | ⟨habs, -⟩ <;> rw [habs] <;> omega

/-- A sign scales a distance by 0 or 1. -/
theorem abs_sign_le_one (a : Int) : |a.sign| ≤ 1 := by
  by_cases h : a = 0
  · simp [h]
  · exact (Int.abs_sign_of_ne_zero h).le

section
variable {steep : Bool} {xa ya xb yb : Int} (h : |yb - ya| ≤ xb - xa)
include h

theorem linePoint_first : linePoint steep xa ya xb yb 0 = linePixel steep xa ya := by
  have hdy := abs_nonneg (yb - ya)
  have hrows : (xb - xa - 1) / 2 / (xb - xa) = 0 := by
    rcases (hdy.trans h).eq_or_lt with hdx | hdx
    · rw [← hdx, Int.ediv_zero]
    · exact Int.ediv_eq_zero_of_lt (by omega) (by omega)
  simp [linePoint, hrows]

theorem linePoint_last : linePoint steep xa ya xb yb (xb - xa).toNat = linePixel steep xb yb := by
  have hdy := abs_nonneg (yb - ya)
  rw [linePoint, linePixel_inj, Int.toNat_of_nonneg (by omega)]
  refine ⟨by omega, ?_⟩
  rcases (hdy.trans h).eq_or_lt with hdx | hdx
  · rw [← hdx, abs_nonpos_iff, sub_eq_zero] at h
    simp [h]
  · have hrows : ((xb - xa) * |yb - ya| + (xb - xa - 1) / 2) / (xb - xa) = |yb - ya| := by
      rw [Int.mul_add_ediv_left _ _ hdx.ne', Int.ediv_eq_zero_of_lt (by omega) (by omega), add_zero]
    rw [hrows, Int.sign_mul_abs]
    omega

/-- The list of a line that runs left to right, in closed form: the accumulator starts at dx >> 1 (R82). -/
theorem lineOrdered_eq_map : lineOrdered steep xa ya xb yb =
    (List.range ((xb - xa).toNat + 1)).map (linePoint steep xa ya xb yb) := by
  have hdy := abs_nonneg (yb - ya)
  rw [lineOrdered, if_neg (by omega), lineRightward]
  rcases (hdy.trans h).eq_or_lt with hdx | hdx
  · rw [← hdx]
    simp [lineLoop, linePoint_first h]
  · rw [lineLoop_eq_map hdy h _ _ _ _ (by omega) (by omega)]
    refine List.map_congr_left fun k _ => ?_
    rw [linePoint, linePixel_inj, show xb - xa - 1 - (xb - xa) / 2 = (xb - xa - 1) / 2 by omega]
    refine ⟨rfl, ?_⟩
    rcases lt_trichotomy ya yb with hup | rfl | hdown
    · rw [if_pos hup, Int.sign_eq_one_of_pos (by omega)]
    · have hrows : (xb - xa - 1) / 2 / (xb - xa) = 0 := Int.ediv_eq_zero_of_lt (by omega) (by omega)
      simp [hrows]
    · rw [if_neg (by omega), Int.sign_eq_neg_one_of_neg (by omega)]

theorem length_lineOrdered : ((lineOrdered steep xa ya xb yb).length : Int) = xb - xa + 1 := by
  have hdy := abs_nonneg (yb - ya)
  rw [lineOrdered_eq_map h, List.length_map, List.length_range]
  omega

/-- No pixel comes twice, since each is one further along the line's direction. -/
theorem nodup_lineOrdered : (lineOrdered steep xa ya xb yb).Nodup := by
  rw [lineOrdered_eq_map h]
  refine List.nodup_range.map fun k k' hkk' => ?_
  obtain ⟨halong, -⟩ := linePixel_inj.mp hkk'
  omega

theorem ends_mem_lineOrdered : linePixel steep xa ya ∈ lineOrdered steep xa ya xb yb ∧
    linePixel steep xb yb ∈ lineOrdered steep xa ya xb yb := by
  rw [lineOrdered_eq_map h, ← linePoint_first h, ← linePoint_last h]
  exact ⟨List.mem_map_of_mem (by simp), List.mem_map_of_mem (by simp)⟩

theorem getElem?_lineOrdered {k : Nat} (hk : (k : Int) ≤ xb - xa) :
    (lineOrdered steep xa ya xb yb)[k]? = some (linePoint steep xa ya xb yb k) := by
  rw [lineOrdered_eq_map h, List.getElem?_map, List.getElem?_range (by omega), Option.map_some]

/-- Every pixel lies between the ends and at most half a pixel across from the exact line. -/
theorem lineOrdered_within_half (hlt : xa < xb) {x y : Int}
    (hmem : linePixel steep x y ∈ lineOrdered steep xa ya xb yb) :
    xa ≤ x ∧ x ≤ xb ∧ 2 * |(y - ya) * (xb - xa) - (yb - ya) * (x - xa)| ≤ xb - xa := by
  rw [lineOrdered_eq_map h] at hmem
  obtain ⟨k, hk, hpoint⟩ := List.mem_map.mp hmem
  obtain ⟨rfl, rfl⟩ := linePixel_inj.mp hpoint
  have hk := List.mem_range.mp hk
  refine ⟨by omega, by omega, ?_⟩
  have hacross (rows : Int) : (ya + (yb - ya).sign * rows - ya) * (xb - xa) - (yb - ya) * (xa + k - xa) =
      (yb - ya).sign * (rows * (xb - xa) - k * |yb - ya|) := by
    linear_combination (k : Int) * Int.sign_mul_abs (yb - ya)
  rw [hacross, abs_mul]
  refine le_trans ?_ (two_mul_abs_rounded_sub_le (k * |yb - ya|) (by omega : 0 < xb - xa))
  exact mul_le_mul_of_nonneg_left (mul_le_of_le_one_left (abs_nonneg _) (abs_sign_le_one _)) zero_le_two

end

theorem linePixels_of_flat {xa ya xb yb : Int} (h : |yb - ya| ≤ |xb - xa|) :
    linePixels xa ya xb yb = lineOrdered false xa ya xb yb :=
  if_neg h.not_gt

theorem linePixels_of_steep {xa ya xb yb : Int} (h : |xb - xa| < |yb - ya|) :
    linePixels xa ya xb yb = lineOrdered true ya xa yb xb :=
  if_pos h

/-- The endpoints are put in left-to-right order, so their own order does not matter (R82, PRESUMED, log 20). -/
theorem lineOrdered_swap {xa ya xb yb : Int} (h : |yb - ya| ≤ |xb - xa|) (steep : Bool) :
    lineOrdered steep xb yb xa ya = lineOrdered steep xa ya xb yb := by
  rcases lt_trichotomy xa xb with hlt | rfl | hgt
  · rw [lineOrdered, if_pos hlt, lineOrdered, if_neg (by omega)]
  · rw [sub_self, abs_zero, abs_nonpos_iff, sub_eq_zero] at h
    rw [h]
  · rw [lineOrdered, if_neg (by omega), lineOrdered, if_pos hgt]

/-- A line after the transpose, for either order of its endpoints: one pixel for each step along it, no pixel twice, and
both ends (R82). -/
theorem lineOrdered_joins {xa ya xb yb : Int} (h : |yb - ya| ≤ |xb - xa|) (steep : Bool) :
    ((lineOrdered steep xa ya xb yb).length : Int) = |xb - xa| + 1 ∧ (lineOrdered steep xa ya xb yb).Nodup ∧
      linePixel steep xa ya ∈ lineOrdered steep xa ya xb yb ∧
      linePixel steep xb yb ∈ lineOrdered steep xa ya xb yb := by
  rcases le_total xa xb with hle | hle
  · rw [abs_of_nonneg (sub_nonneg.mpr hle)] at h ⊢
    exact ⟨length_lineOrdered h, nodup_lineOrdered h, ends_mem_lineOrdered h⟩
  · rw [← lineOrdered_swap h]
    rw [abs_sub_comm, abs_sub_comm xb, abs_of_nonneg (sub_nonneg.mpr hle)] at h
    rw [abs_sub_comm, abs_of_nonneg (sub_nonneg.mpr hle)]
    exact ⟨length_lineOrdered h, nodup_lineOrdered h, (ends_mem_lineOrdered h).symm⟩

/-- Settles O37: the transposed line has these properties, and transposing back takes its ends to the line's own. -/
theorem linePixelsJoinBothEndpoints : Obligations.LinePixelsJoinBothEndpoints := by
  intro xa ya xb yb
  rcases le_or_gt |yb - ya| |xb - xa| with hflat | hsteep
  · obtain ⟨hlength, hnodup, hfirst, hlast⟩ := lineOrdered_joins hflat false
    rw [linePixels_of_flat hflat, max_eq_left hflat, linePixels_of_flat (by rwa [abs_sub_comm, abs_sub_comm xa])]
    exact ⟨hlength, hnodup, hfirst, hlast, lineOrdered_swap hflat false⟩
  · obtain ⟨hlength, hnodup, hfirst, hlast⟩ := lineOrdered_joins hsteep.le true
    rw [linePixels_of_steep hsteep, max_eq_right hsteep.le,
      linePixels_of_steep (by rwa [abs_sub_comm, abs_sub_comm ya])]
    exact ⟨hlength, hnodup, hfirst, hlast, lineOrdered_swap hsteep.le true⟩

/-- Settles O38: for a steep line the bound of the transposed line, with rows and columns exchanged. -/
theorem linePixelsStayWithinHalfAPixel : Obligations.LinePixelsStayWithinHalfAPixel := by
  intro xa ya xb yb
  constructor
  · intro hlt hflat x y hmem
    rw [linePixels_of_flat (hflat.trans (le_abs_self _))] at hmem
    exact lineOrdered_within_half hflat hlt hmem
  · intro hlt hsteep x y hmem
    rw [linePixels_of_steep (hsteep.trans_le (le_abs_self _))] at hmem
    exact lineOrdered_within_half hsteep.le hlt hmem

/-- Settles O53: the closed form of the transposed line, transposed back. -/
theorem linePixelsFollowTheErrorAccumulator : Obligations.LinePixelsFollowTheErrorAccumulator := by
  intro xa ya xb yb
  constructor
  · intro _ hflat k hk
    rw [linePixels_of_flat (hflat.trans (le_abs_self _)), getElem?_lineOrdered hflat hk]
    rfl
  · intro _ hsteep k hk
    rw [linePixels_of_steep (hsteep.trans_le (le_abs_self _)), getElem?_lineOrdered hsteep.le hk]
    rfl

/-! ### Where a pixel goes

Drawing leaves the registers, so it leaves where every later pixel goes (R70, R77). -/

section
variable {s t : State} (h : s.drawnTo t)
include h

theorem State.drawnTo.cfg : t.cfg = s.cfg := by
  obtain ⟨e, -⟩ := h
  rw [e]

theorem State.drawnTo.mode : t.mode = s.mode := by
  obtain ⟨e, -⟩ := h
  rw [e]

theorem State.drawnTo.inBounds (x y : Int) : t.inBounds x y = s.inBounds x y := by
  obtain ⟨e, -⟩ := h
  rw [e]
  rfl

theorem State.drawnTo.physical (x y : Int) : t.physical x y = s.physical x y := by
  obtain ⟨e, -⟩ := h
  rw [e]
  rfl

theorem State.drawnTo.fallsOff (x y : Int) : t.fallsOff x y = s.fallsOff x y := by
  obtain ⟨e, -⟩ := h
  rw [e]
  rfl

theorem State.drawnTo.lands_iff (p : Pixel) : t.lands p ↔ s.lands p := by
  rw [State.lands, State.lands, h.inBounds, h.fallsOff]

theorem State.drawnTo.hits_iff (ps : List Pixel) (x0 y0 : Nat) : t.hits ps x0 y0 ↔ s.hits ps x0 y0 := by
  simp only [State.hits, h.inBounds, h.physical]

end

/-- LOGICAL makes no range check (R66). -/
theorem State.lands_of_logical {s : State} (h : s.cfg.rotVariant = .logical) (p : Pixel) : s.lands p := by
  intro _
  simp [State.fallsOff, h]

theorem State.hits_append (s : State) (ps qs : List Pixel) (x0 y0 : Nat) :
    s.hits (ps ++ qs) x0 y0 ↔ s.hits ps x0 y0 ∨ s.hits qs x0 y0 := by
  simp only [State.hits, List.mem_append, or_and_right, exists_or]

/-! ### The pixels beside a plotted one -/

/-- In MODE 1 every pixel of the panel but the plotted one shows what it showed (R74). -/
theorem State.mPix_plotted_of_ne {s : State} (hlegal : s.cfg.legal) (hmb : s.mb.wf s.cfg.msize = true)
    (hmode : s.mode = modeMono) {px py x0 y0 : Nat} (hpx : px < s.cfg.pw) (hx : x0 < s.cfg.pw)
    (hne : ¬ (px = x0 ∧ py = y0)) (c : Colour) : (s.plotted px py c).mPix x0 y0 = s.mPix x0 y0 := by
  simp only [State.mPix, State.memRead, State.plotted_mono hmode, State.memWrite_cfg, State.buffer_mono,
    State.memWrite_mono_mb]
  by_cases hbyte : s.cfg.mbyte px py = s.cfg.mbyte x0 y0
  · obtain ⟨-, -, hwidth, -⟩ := hlegal
    obtain ⟨hrow, hcolumn⟩ : py = y0 ∧ px / 8 = x0 / 8 :=
      flatIndex_inj (m := s.cfg.pw / 8) (by omega) (by omega) hbyte
    rw [← hbyte, Memory.read_write_same hmb, monoPixelOf_packMono_other (by omega)]
  · rw [Memory.read_write_of_ne hmb hbyte]

/-- In MODE 3 every pixel of the panel but the plotted one shows what it showed (R74). -/
theorem State.gPix_plotted_of_ne {s : State} (hlegal : s.cfg.legal) (hgb : s.gb.wf s.cfg.gsize = true)
    (hmode : s.mode = modeGray) {px py x0 y0 : Nat} (hpx : px < s.cfg.pw) (hx : x0 < s.cfg.pw)
    (hne : ¬ (px = x0 ∧ py = y0)) (c : Colour) :
    (s.plotted px py c).gPix x0 y0 = s.gPix x0 y0 ∧ (s.plotted px py c).gRsv x0 y0 = s.gRsv x0 y0 := by
  simp only [State.gPix, State.gRsv, State.memRead, State.plotted_gray hmode, State.memWrite_cfg, State.buffer_gray,
    State.memWrite_gray_gb]
  by_cases hbyte : s.cfg.gbyte px py = s.cfg.gbyte x0 y0
  · obtain ⟨-, -, hwidth, -⟩ := hlegal
    obtain ⟨hrow, hcolumn⟩ : py = y0 ∧ px / 2 = x0 / 2 :=
      flatIndex_inj (m := s.cfg.pw / 2) (by omega) (by omega) hbyte
    rw [← hbyte, Memory.read_write_same hgb]
    exact grayPixelOf_packGray_other (by omega) c _
  · rw [Memory.read_write_of_ne hgb hbyte]
    exact ⟨rfl, rfl⟩

/-! ### What a list of pixels paints -/

/-- Pixels that hit nothing paint nothing. -/
theorem State.paintedAs_self {s : State} {ps : List Pixel} (h : ∀ x0 y0, ¬ s.hits ps x0 y0) (c : Colour) :
    s.paintedAs ps c s :=
  ⟨fun _ => ⟨rfl, fun x0 y0 _ _ => ⟨fun hit => absurd hit (h x0 y0), fun _ => rfl⟩⟩,
    fun _ => ⟨rfl, fun x0 y0 _ _ => ⟨fun hit => absurd hit (h x0 y0), fun _ => ⟨rfl, rfl⟩⟩⟩, fun _ _ => ⟨rfl, rfl⟩⟩

/-- Two lists painted one after the other are their concatenation painted: a pixel shows the last list that hits it, and
the colour is the same. -/
theorem State.paintedAs_append {s t u : State} {c : Colour} {ps qs : List Pixel} (hst : s.drawnTo t)
    (h : s.paintedAs ps c t) (h' : t.paintedAs qs c u) : s.paintedAs (ps ++ qs) c u := by
  obtain ⟨hmono, hgray, hother⟩ := h
  obtain ⟨hmono', hgray', hother'⟩ := h'
  simp only [hst.mode, hst.cfg, hst.hits_iff] at hmono' hgray' hother'
  refine ⟨fun hmode => ?_, fun hmode => ?_, fun hne hne' => ?_⟩
  · obtain ⟨hgb, hpix⟩ := hmono hmode
    obtain ⟨hgb', hpix'⟩ := hmono' hmode
    refine ⟨hgb'.trans hgb, fun x0 y0 hx hy => ?_⟩
    specialize hpix x0 y0 hx hy
    specialize hpix' x0 y0 hx hy
    rw [State.hits_append]
    by_cases hq : s.hits qs x0 y0
    · simpa only [hq, or_true, not_true, true_imp_iff, false_imp_iff] using hpix'
    · simp only [hq, not_false_eq_true, true_imp_iff, false_imp_iff, true_and] at hpix'
      simpa only [hq, or_false, hpix'] using hpix
  · obtain ⟨hmb, hpix⟩ := hgray hmode
    obtain ⟨hmb', hpix'⟩ := hgray' hmode
    refine ⟨hmb'.trans hmb, fun x0 y0 hx hy => ?_⟩
    specialize hpix x0 y0 hx hy
    specialize hpix' x0 y0 hx hy
    rw [State.hits_append]
    by_cases hq : s.hits qs x0 y0
    · simpa only [hq, or_true, not_true, true_imp_iff, false_imp_iff] using hpix'
    · simp only [hq, not_false_eq_true, true_imp_iff, false_imp_iff, true_and] at hpix'
      simpa only [hq, or_false, hpix'] using hpix
  · obtain ⟨hmb, hgb⟩ := hother hne hne'
    obtain ⟨hmb', hgb'⟩ := hother' hne hne'
    exact ⟨hmb'.trans hmb, hgb'.trans hgb⟩

/-- A plotted pixel is the one-pixel list painted (R68, R69, R76). -/
theorem State.paintedAs_plotted {s : State} (hs : s.inv) {p : Pixel} (hin : s.inBounds p.1 p.2 = true) {px py : Nat}
    (hphys : s.physical p.1 p.2 = ((px : Int), (py : Int))) (hpx : px < s.cfg.pw) (c : Colour) :
    s.paintedAs [p] c (s.plotted px py c) := by
  obtain ⟨hlegal, -, ⟨hmb, hgb⟩, -⟩ := hs
  obtain ⟨-, hmbKept, hgbKept⟩ := s.drawnTo_plotted px py c
  have hits_iff (x0 y0 : Nat) : s.hits [p] x0 y0 ↔ px = x0 ∧ py = y0 := by
    simp [State.hits, hin, hphys, -State.inBounds_iff]
  refine ⟨fun hmode => ⟨hgbKept (by rw [hmode]; decide), fun x0 y0 hx _ => ?_⟩,
    fun hmode => ⟨hmbKept (by rw [hmode]; decide), fun x0 y0 hx _ => ?_⟩,
    fun hne hne' => ⟨hmbKept hne, hgbKept hne'⟩⟩ <;> rw [hits_iff]
  · refine ⟨?_, fun hne => State.mPix_plotted_of_ne hlegal hmb hmode hpx hx hne c⟩
    rintro ⟨rfl, rfl⟩
    exact State.mPix_plotted hmb hmode px py c
  · refine ⟨?_, fun hne => State.gPix_plotted_of_ne hlegal hgb hmode hpx hx hne c⟩
    rintro ⟨rfl, rfl⟩
    exact State.gPix_plotted hgb hmode px py c

/-- WritePixel of a pixel that passes the range check, or is clipped, goes on with that pixel painted (R70). -/
theorem pixelWrite_paints {s : State} (hs : s.inv) {p : Pixel} (hlands : s.lands p) (c : Colour) :
    ∃ t, pixelWrite p.1 p.2 c s = .go t ∧ s.paintedAs [p] c t := by
  cases hin : s.inBounds p.1 p.2 with
  | false =>
    have hnone (x0 y0 : Nat) : ¬ s.hits [p] x0 y0 := by simp [State.hits, hin, -State.inBounds_iff]
    exact ⟨s, pixelWrite_of_outOfBounds hin c, State.paintedAs_self hnone c⟩
  | true =>
    obtain ⟨px, py, hphys, hpx, -, hwrite⟩ := pixelWrite_eq_plotted hs hin (hlands hin)
    exact ⟨_, hwrite c, State.paintedAs_plotted hs hin hphys hpx c⟩

/-- Pixels that all pass the range check, or are clipped, are all painted (R77). -/
theorem expand_paints {s : State} (hs : s.inv) {ps : List Pixel} (hlands : ∀ p ∈ ps, s.lands p) (c : Colour) :
    ∃ t, expand c ps s = .go t ∧ s.paintedAs ps c t := by
  induction ps generalizing s with
  | nil => exact ⟨s, rfl, State.paintedAs_self (by simp [State.hits]) c⟩
  | cons p ps ih =>
    obtain ⟨hp, hps⟩ := List.forall_mem_cons.mp hlands
    obtain ⟨t, hwrite, hpainted⟩ := pixelWrite_paints hs hp c
    have hcarried : (pixelWrite p.1 p.2 c s).carried = some t := by rw [hwrite]; rfl
    have hdrawn := pixelWrite_drawnTo hcarried
    obtain ⟨u, hexpand, hpainted'⟩ :=
      ih (pixelWrite_inv hcarried hs) fun q hq => (hdrawn.lands_iff q).mpr (hps q hq)
    exact ⟨u, (expand_cons_go hwrite ps).trans hexpand, State.paintedAs_append hdrawn hpainted hpainted'⟩

/-! ### The drawing commands in a ready machine -/

section
variable {s : State} (hs : s.inv) (hready : s.init = .ready) {i : Instr} {c : Colour} {ps : List Pixel}
include hs hready

/-- A command whose pixels all land answers OK with its pixels painted (R77, R90). -/
theorem exec_paints (hi : exec i s = whenReady s (expand c ps s).finish) (hlands : ∀ p ∈ ps, s.lands p) :
    ∃ t : State, exec i s = .next t ∧
      t = { s with mb := t.mb, gb := t.gb, responses := s.responses ++ [⟨.ok, 0#32⟩], busy := false } ∧
      s.paintedAs ps c t := by
  obtain ⟨t, hexpand, hpainted⟩ := expand_paints hs hlands c
  obtain ⟨hregisters, -⟩ := expand_drawnTo (c := c) (ps := ps) (s := s) (t := t) (by rw [hexpand]; rfl)
  exact ⟨t.respond .ok 0#32, by rw [hi, whenReady_of_ready hready, hexpand, Effect.finish_go],
    congrArg (State.respond .ok 0#32) hregisters, hpainted⟩

/-- A command that meets a pixel off the panel answers PHYS_OUT_OF_RANGE with the pixels before it painted (R77, R95,
R99). -/
theorem exec_paints_until {p : Pixel} {qs : List Pixel}
    (hi : exec i s = whenReady s (expand c (ps ++ p :: qs) s).finish) (hlands : ∀ q ∈ ps, s.lands q)
    (hoff : ¬ s.lands p) :
    ∃ t : State, exec i s = .next t ∧
      t = { s with
        mb := t.mb, gb := t.gb, busy := false,
        responses := s.responses ++ [⟨.physOutOfRange, physInfo (s.physical p.1 p.2)⟩] } ∧
      s.paintedAs ps c t := by
  obtain ⟨t, hexpand, hpainted⟩ := expand_paints hs hlands c
  have hdrawn : s.drawnTo t := expand_drawnTo (c := c) (ps := ps) (by rw [hexpand]; rfl)
  have ⟨hregisters, _⟩ := hdrawn
  obtain ⟨hin, hfalls⟩ : s.inBounds p.1 p.2 = true ∧ s.fallsOff p.1 p.2 = true := by
    simpa only [State.lands, Classical.not_imp, Bool.not_eq_false] using hoff
  have hraise : pixelWrite p.1 p.2 c t = .raised .physOutOfRange (physInfo (s.physical p.1 p.2)) t := by
    rw [← hdrawn.inBounds] at hin
    rw [← hdrawn.fallsOff] at hfalls
    rw [pixelWrite_of_fallsOff hin hfalls, hdrawn.physical]
  refine ⟨t.respond .physOutOfRange (physInfo (s.physical p.1 p.2)), ?_, ?_, hpainted⟩
  · rw [hi, whenReady_of_ready hready, expand_append hexpand, expand_cons_raised hraise, Effect.finish_raised]
  · exact congrArg (State.respond .physOutOfRange _) hregisters

end

/-- Settles O39: each of the commands expands the rectangle's list, whose members are the pixels within its sides. -/
theorem rectangleCommandsPaintExactly : Obligations.RectangleCommandsPaintExactly := by
  intro s x y w h c hs hready i w' h' hi hlands
  have hexec : exec i s = whenReady s (expand c (rectPixels x y w' h') s).finish := by
    rcases hi with ⟨rfl, rfl, rfl⟩ | ⟨rfl, rfl, rfl⟩ | ⟨rfl, rfl, rfl⟩ <;> rfl
  have hall : ∀ p ∈ rectPixels x y w' h', s.lands p := by
    rcases hlands with hlogical | hinside
    · exact fun p _ => State.lands_of_logical hlogical p
    · rintro ⟨px, py⟩ hp
      obtain ⟨⟨hx, hx'⟩, hy, hy'⟩ := mem_rectPixels.mp hp
      exact hinside px py hx hx' hy hy'
  obtain ⟨t, hnext, hframe, hpainted⟩ := exec_paints hs hready hexec hall
  exact ⟨t, rectPixels x y w' h', hnext, fun _ _ => mem_rectPixels, hframe, hpainted⟩

/-- Settles O40: a line expands its list, and a pixel command is the expansion of its one pixel. -/
theorem lineAndPixelCommandsPaintExactly : Obligations.LineAndPixelCommandsPaintExactly := by
  intro s x y x1 y1 c hs hready i ps hi hlands
  have hexec : exec i s = whenReady s (expand c ps s).finish := by
    rcases hi with ⟨rfl, rfl⟩ | ⟨rfl, rfl⟩ | ⟨rfl, rfl⟩
    · rfl
    · exact exec_writePixel x y c s
    · exact exec_drawPixel x y c s
  exact exec_paints hs hready hexec (hlands.elim (fun hlogical p _ => State.lands_of_logical hlogical p) id)

/-- Settles O42: a run, a rectangle and a line each expand their own list, which stops at the pixel off the panel. -/
theorem primitiveStopsAtTheFirstPixelOffThePanel : Obligations.PrimitiveStopsAtTheFirstPixelOffThePanel := by
  intro s i c ps qs p hs hready hi hpixels hlands hoff
  have hexec : exec i s = whenReady s (expand c (ps ++ p :: qs) s).finish := by
    rcases hi with ⟨x, y, w, rfl⟩ | ⟨x, y, h, rfl⟩ | ⟨x, y, w, h, rfl⟩ | ⟨x0, y0, x1, y1, rfl⟩ <;>
      rw [← Option.some.inj hpixels] <;> rfl
  exact exec_paints_until hs hready hexec hlands hoff

/-! ### A buffer is what its pixels show -/

/-- The eight pixels of a Monochrome byte determine it (R27). -/
theorem byte_ext_of_monoPixels {b b' : Byte} (h : ∀ q < 8, monoPixelOf q b = monoPixelOf q b') : b = b' := by
  refine BitVec.eq_of_getLsbD_eq fun k hk => ?_
  have hbit := congrArg (fun v : Byte => v.getLsbD 0) (h (7 - k) (by omega))
  simpa [monoPixelOf, mbit, Nat.mod_eq_of_lt (show 7 - k < 8 by omega), show 7 - (7 - k) = k by omega] using hbit

/-- The levels and the reserved bits of the two pixels of a Grayscale byte determine it (R28, R29). -/
theorem byte_ext_of_grayPixels {b b' : Byte}
    (h : ∀ q < 2, grayPixelOf q b = grayPixelOf q b' ∧ grayReservedOf q b = grayReservedOf q b') : b = b' := by
  have nibble {q : Nat} (hq : q < 2) {k : Nat} (hk : k < 4) : b.getLsbD (gshift q + k) = b'.getLsbD (gshift q + k) := by
    obtain ⟨hlevel, hreserved⟩ := h q hq
    rcases Nat.lt_or_eq_of_le (Nat.le_of_lt_succ hk) with hk | rfl
    · have hbit := congrArg (fun v : Byte => v.getLsbD k) hlevel
      interval_cases k <;> simpa [grayPixelOf] using hbit
    · have hbit := congrArg (fun v : Byte => v.getLsbD 0) hreserved
      simpa [grayReservedOf] using hbit
  refine BitVec.eq_of_getLsbD_eq fun k hk => ?_
  by_cases hlow : k < 4
  · simpa [gshift] using nibble (q := 1) (by decide) hlow
  · simpa [gshift, show 4 + (k - 4) = k by omega] using nibble (q := 0) (by decide) (show k - 4 < 4 by omega)

theorem monoPixelOf_congr {x0 x1 : Nat} (h : x0 % 8 = x1 % 8) : monoPixelOf x0 = monoPixelOf x1 := by
  funext b
  rw [monoPixelOf, monoPixelOf, mbit, mbit, h]

theorem gshift_congr {x0 x1 : Nat} (h : x0 % 2 = x1 % 2) : gshift x0 = gshift x1 := by
  rw [gshift, gshift, h]

/-- Each index below a row-major size is that of a row, a column of d pixels, and any pixel in that column. -/
theorem exists_place {d w n a q : Nat} (hdvd : d ∣ w) (ha : a < w / d * n) (hq : q < d) :
    ∃ x0 y0, x0 < w ∧ y0 < n ∧ x0 % d = q ∧ w / d * y0 + x0 / d = a := by
  have hd : 0 < d := by omega
  have hstride : 0 < w / d := Nat.pos_of_mul_pos_right (by omega : 0 < w / d * n)
  have hcolumn : a % (w / d) < w / d := Nat.mod_lt _ hstride
  refine ⟨d * (a % (w / d)) + q, a / (w / d), ?_, Nat.div_lt_of_lt_mul ha, ?_, ?_⟩
  · calc d * (a % (w / d)) + q < d * (a % (w / d) + 1) := by rw [Nat.mul_succ]; omega
      _ ≤ d * (w / d) := Nat.mul_le_mul_left d hcolumn
      _ = w := Nat.mul_div_cancel' hdvd
  · rw [Nat.mul_add_mod, Nat.mod_eq_of_lt hq]
  · rw [Nat.mul_add_div hd, Nat.div_eq_of_lt hq, Nat.add_zero, Nat.div_add_mod]

section
variable {t t' : State} (hlegal : t.cfg.legal) (hcfg : t'.cfg = t.cfg)
include hlegal hcfg

/-- Two canonical Monochrome buffers that show the same pixels are the same. -/
theorem State.mb_ext (hwf : t.mb.wf t.cfg.msize = true) (hwf' : t'.mb.wf t.cfg.msize = true)
    (h : ∀ x0 y0, x0 < t.cfg.pw → y0 < t.cfg.ph → t.mPix x0 y0 = t'.mPix x0 y0) : t.mb = t'.mb := by
  obtain ⟨-, -, hwidth, -⟩ := hlegal
  refine Memory.ext_of_read hwf hwf' fun a ha => byte_ext_of_monoPixels fun q hq => ?_
  obtain ⟨x0, y0, hx, hy, rfl, rfl⟩ := exists_place (Nat.dvd_of_mod_eq_zero hwidth) ha hq
  have hpix := h x0 y0 hx hy
  rw [State.mPix, State.mPix, hcfg] at hpix
  rw [monoPixelOf_congr (Nat.mod_mod x0 8)]
  exact hpix

/-- Two canonical Grayscale buffers that show the same levels and reserved bits are the same. -/
theorem State.gb_ext (hwf : t.gb.wf t.cfg.gsize = true) (hwf' : t'.gb.wf t.cfg.gsize = true)
    (h : ∀ x0 y0, x0 < t.cfg.pw → y0 < t.cfg.ph → t.gPix x0 y0 = t'.gPix x0 y0 ∧ t.gRsv x0 y0 = t'.gRsv x0 y0) :
    t.gb = t'.gb := by
  obtain ⟨-, -, hwidth, -⟩ := hlegal
  refine Memory.ext_of_read hwf hwf' fun a ha => byte_ext_of_grayPixels fun q hq => ?_
  obtain ⟨x0, y0, hx, hy, rfl, rfl⟩ := exists_place (by omega : 2 ∣ t.cfg.pw) ha hq
  have hpix := h x0 y0 hx hy
  rw [State.gPix, State.gPix, State.gRsv, State.gRsv, hcfg] at hpix
  simp only [grayPixelOf, grayReservedOf, gshift_congr (Nat.mod_mod x0 2)]
  exact hpix

end

/-- What a list paints is determined by the panel pixels it hits. -/
theorem State.paintedAs_unique {s t t' : State} {c : Colour} {ps qs : List Pixel} (hdrawn : s.drawnTo t)
    (hdrawn' : s.drawnTo t') (ht : t.inv) (ht' : t'.inv) (h : s.paintedAs ps c t) (h' : s.paintedAs qs c t')
    (hsame : ∀ x0 y0, s.hits ps x0 y0 ↔ s.hits qs x0 y0) : t = t' := by
  obtain ⟨hlegal, -, ⟨hmbWf, hgbWf⟩, -⟩ := ht
  obtain ⟨-, -, ⟨hmbWf', hgbWf'⟩, -⟩ := ht'
  have hcfg : t'.cfg = t.cfg := hdrawn'.cfg.trans hdrawn.cfg.symm
  rw [hcfg] at hmbWf' hgbWf'
  obtain ⟨hmono, hgray, -⟩ := h
  obtain ⟨hmono', hgray', -⟩ := h'
  obtain ⟨hregisters, hmbKept, hgbKept⟩ := hdrawn
  obtain ⟨hregisters', hmbKept', hgbKept'⟩ := hdrawn'
  have hscfg : t.cfg = s.cfg := by rw [hregisters]
  have hmb : t.mb = t'.mb := by
    by_cases hmode : s.mode = modeMono
    · refine State.mb_ext hlegal hcfg hmbWf hmbWf' fun x0 y0 hx hy => ?_
      rw [hscfg] at hx hy
      have hpix := (hmono hmode).2 x0 y0 hx hy
      have hpix' := (hmono' hmode).2 x0 y0 hx hy
      rw [← hsame x0 y0] at hpix'
      by_cases hit : s.hits ps x0 y0 <;>
        simp only [hit, not_true, not_false_eq_true, true_imp_iff, false_imp_iff, true_and, and_true] at hpix hpix' <;>
        simp only [hpix, hpix']
    · rw [hmbKept hmode, hmbKept' hmode]
  have hgb : t.gb = t'.gb := by
    by_cases hmode : s.mode = modeGray
    · refine State.gb_ext hlegal hcfg hgbWf hgbWf' fun x0 y0 hx hy => ?_
      rw [hscfg] at hx hy
      have hpix := (hgray hmode).2 x0 y0 hx hy
      have hpix' := (hgray' hmode).2 x0 y0 hx hy
      rw [← hsame x0 y0] at hpix'
      by_cases hit : s.hits ps x0 y0 <;>
        simp only [hit, not_true, not_false_eq_true, true_imp_iff, false_imp_iff, true_and, and_true] at hpix hpix' <;>
        simp only [hpix, hpix', and_self]
    · rw [hgbKept hmode, hgbKept' hmode]
  rw [hregisters, hregisters', hmb, hgb]

/-- Settles O41: under LOGICAL both lists are painted whole, and a permutation hits the same panel pixels. -/
theorem pixelOrderDoesNotMatter : Obligations.PixelOrderDoesNotMatter := by
  intro s c ps qs hs hlogical hperm
  obtain ⟨t, hexpand, hpainted⟩ := expand_paints hs (ps := ps) (fun p _ => State.lands_of_logical hlogical p) c
  obtain ⟨t', hexpand', hpainted'⟩ := expand_paints hs (ps := qs) (fun p _ => State.lands_of_logical hlogical p) c
  have hcarried : (expand c ps s).carried = some t := by rw [hexpand]; rfl
  have hcarried' : (expand c qs s).carried = some t' := by rw [hexpand']; rfl
  have hsame (x0 y0 : Nat) : s.hits ps x0 y0 ↔ s.hits qs x0 y0 := by
    simp only [State.hits, hperm.mem_iff]
  rw [hexpand, hexpand', State.paintedAs_unique (expand_drawnTo hcarried) (expand_drawnTo hcarried')
    (expand_inv hcarried hs) (expand_inv hcarried' hs) hpainted hpainted' hsame]

/-! ### The brackets -/

/-- Settles O43: a bracket's word has no operand, and its effect is to go on with the state as it is. -/
theorem bracketsChangeNothing : Obligations.BracketsChangeNothing := by
  refine ⟨fun cw => ⟨decode_eq_plain_iff (o := .startWrite) rfl rfl, decode_eq_plain_iff (o := .endWrite) rfl rfl⟩,
    fun s hready i hi => ?_⟩
  have hexec : exec i s = whenReady s (Effect.go s).finish := by
    rcases List.mem_pair.mp hi with rfl | rfl <;> rfl
  rw [hexec, whenReady_of_ready hready]
  rfl

end Sys2Proof.Machine

/-! The statements on the commit trace (43_commit.md): what SHOW makes of a ready machine, the bytes its event hands
over, and that no other command appends an event. -/

namespace Sys2Proof.Machine

/-! ### What reaches the commit trace -/

/-- Drawing requests nothing of the panel driver, so the trace is as it was (R77, R87). -/
theorem expand_commits {c : Colour} {ps : List Pixel} {s t : State} (h : (expand c ps s).carried = some t) :
    t.commits = s.commits := by
  obtain ⟨hregisters, -, -⟩ := expand_drawnTo h
  rw [hregisters]

/-- Of a command's changes only SHOW's own reaches the trace, by one event (R87, R88). -/
theorem CommandChange.commits {i : Instr} {s u : State} (h : CommandChange i s u) : u.commits = s.commits ∨
    (i = .showBuffer ∧ u.commits = s.commits ++ [s.commitEvent (bufferOfMode s.mode)]) := by
  cases h with
  | drawn hi hu => exact .inl (expand_commits hu)
  | committed hi => exact .inr ⟨hi, rfl⟩
  | unchanged | rotated | modeSet | modeSelected => simp

/-- Settles O23: the answer writes no event, and of the changes before it only SHOW's appends one. -/
theorem onlyShowCommits : Obligations.OnlyShowCommits := by
  intro i s t h
  obtain ⟨u, hu, _, _, _, rfl⟩ := exec_change h
  exact hu.commits.imp_right fun ⟨hi, hevent⟩ => ⟨hi, _, hevent⟩

/-! ### The bytes of an event -/

/-- A commit of `sel` hands over the whole buffer, byte by byte in increasing index (R30, R87). -/
theorem State.bytes_commitEvent (s : State) (sel : BufferSel) :
    (s.commitEvent sel).bytes.length = s.bufferSize sel ∧
      ∀ k < s.bufferSize sel, (s.commitEvent sel).bytes[k]? = some (s.memRead sel k) := by
  refine ⟨by simp [CommitEvent.bytes, Memory.bytes, State.commitEvent], fun k hk => ?_⟩
  simp [CommitEvent.bytes, Memory.bytes, State.commitEvent, State.memRead, hk]

/-! ### SHOW in a ready machine -/

/-- `s` after a SHOW whose request the driver completes, before it answers: the event of the mode's buffer appended, and
one request served (R87, R88). -/
def State.shown (s : State) : State :=
  { s with pdServes := servesLeft s.pdServes, commits := s.commits ++ [s.commitEvent (bufferOfMode s.mode)] }

@[simp] theorem State.shown_mode (s : State) : s.shown.mode = s.mode := rfl
@[simp] theorem State.shown_init (s : State) : s.shown.init = s.init := rfl
@[simp] theorem State.shown_commits (s : State) :
    s.shown.commits = s.commits ++ [s.commitEvent (bufferOfMode s.mode)] := rfl
@[simp] theorem State.shown_responses (s : State) : s.shown.responses = s.responses := rfl
@[simp] theorem State.shown_pdServes (s : State) : s.shown.pdServes = servesLeft s.pdServes := rfl

/-- A SHOW writes neither buffer, so the next commit finds the same bytes (R89). -/
@[simp] theorem State.commitEvent_shown (s : State) (sel : BufferSel) : s.shown.commitEvent sel = s.commitEvent sel := by
  cases sel <;> rfl

@[simp] theorem State.commitEvent_respond (s : State) (st : Status) (d : Value) (sel : BufferSel) :
    (s.respond st d).commitEvent sel = s.commitEvent sel := by
  cases sel <;> rfl

theorem exec_showBuffer_of_serves {s : State} (hready : s.init = .ready) (hserves : s.driverServes) :
    exec .showBuffer s = .next (s.shown.respond .ok 0#32) := by
  have hexec : exec .showBuffer s = (commitBuffer (bufferOfMode s.mode) s).finish := whenReady_of_ready hready _
  rcases commitBuffer_cases (bufferOfMode s.mode) s with ⟨-, e⟩ | ⟨hsilent, -⟩
  · rw [hexec, e, Effect.finish_go, State.shown]
  · exact absurd hsilent hserves

/-- Settles O44: the event is that of the buffer which MODE selects. -/
theorem showCommitsTheActiveBuffer : Obligations.ShowCommitsTheActiveBuffer := by
  refine ⟨fun cw => decode_eq_plain_iff (o := .showBuffer) rfl rfl, fun s hready hserves => ?_⟩
  refine ⟨s.commitEvent (bufferOfMode s.mode), exec_showBuffer_of_serves hready hserves, fun hmode => ?_,
    fun hmode => ?_⟩
  · rw [(bufferOfMode_eq_mono_iff s.mode).mpr ((toInt_eq_one_iff s.mode).mp hmode)]
    exact ⟨rfl, s.bytes_commitEvent .mono⟩
  · rw [(bufferOfMode_eq_gray_iff s.mode).mpr (mt (toInt_eq_one_iff s.mode).mpr hmode)]
    exact ⟨rfl, s.bytes_commitEvent .gray⟩

/-- A driver with two requests left, or unlimited ones, serves this one and the next (R97). -/
theorem State.serves_twice {s : State} (h : s.pdServes = none ∨ ∃ n, s.pdServes = some (n + 2)) :
    s.driverServes ∧ servesLeft s.pdServes ≠ some 0 := by
  rcases h with h | ⟨n, h⟩ <;> simp [State.driverServes, h, servesLeft]

/-- Two shows and their answers append two equal events and two responses, and no more (R89). -/
theorem State.shown_twice (s : State) :
    (s.shown.respond .ok 0#32).shown.respond .ok 0#32 =
      { s with
        commits := s.commits ++ [s.commitEvent (bufferOfMode s.mode), s.commitEvent (bufferOfMode s.mode)],
        pdServes := servesLeft (servesLeft s.pdServes), busy := false,
        responses := s.responses ++ [⟨.ok, 0#32⟩, ⟨.ok, 0#32⟩] } := by
  have hcommits : ((s.shown.respond .ok 0#32).shown.respond .ok 0#32).commits =
      s.commits ++ [s.commitEvent (bufferOfMode s.mode), s.commitEvent (bufferOfMode s.mode)] := by simp
  have hresponses : ((s.shown.respond .ok 0#32).shown.respond .ok 0#32).responses =
      s.responses ++ [⟨.ok, 0#32⟩, ⟨.ok, 0#32⟩] := by simp
  rw [← hcommits, ← hresponses]
  rfl

/-- Settles O45: the first SHOW leaves the machine ready, with its driver serving and the same buffer to commit. -/
theorem twoShowsCommitTheSameBytes : Obligations.TwoShowsCommitTheSameBytes := by
  intro s hready hdriver
  obtain ⟨hserves, hserves'⟩ := State.serves_twice hdriver
  exact ⟨s.shown.respond .ok 0#32, (s.shown.respond .ok 0#32).shown.respond .ok 0#32,
    s.commitEvent (bufferOfMode s.mode), exec_showBuffer_of_serves hready hserves,
    exec_showBuffer_of_serves (by simpa using hready) (by simpa using hserves'), s.shown_twice⟩

end Sys2Proof.Machine

/-! The statements on the exceptions (60_exceptions.md): the failed reset, that no command stops a machine of the
invariant, that a rejected command has no effect, and what the observation port reads. -/

namespace Sys2Proof.Machine

/-! ### The failed reset -/

/-- Settles O14: INIT = FAILED is the first of the decoder's checks, whatever the word, and no step writes INIT. -/
theorem failedMachineAnswersNotInitialised : Obligations.FailedMachineAnswersNotInitialised := by
  refine ⟨fun s cw rest hbusy hfailed hport => ?_, fun s t hfailed h => ?_, fun c okMono okGray => ?_⟩
  · exact step_of_answer hbusy hport (by rw [hfailed, verdict])
  · obtain ⟨-, hinit⟩ := noStepWritesParametersOrInit s t h
    exact hinit.trans hfailed
  · simp [State.resetWith_init]

/-! ### No command stops -/

/-- The end of a command stops the machine only where its body made an access that does not exist (R25). -/
theorem isNext_finish {e : Effect} (h : ∀ f, e ≠ .fault f) : isNext e.finish = true := by
  cases e with
  | go | raised | waiting => rfl
  | fault f => exact absurd rfl (h f)

theorem isNext_whenReady {s : State} {body : Host.Outcome State Fault Refusal} (h : isNext body = true) :
    isNext (whenReady s body) = true := by
  cases hinit : s.init with
  | failed =>
    rw [whenReady_of_failed hinit]
    rfl
  | ready => rwa [whenReady_of_ready hinit]

theorem assignMode_ne_fault (m : Value) (s : State) (f : Fault) : assignMode m s ≠ .fault f := by
  rcases assignMode_cases m s with ⟨-, e⟩ | ⟨-, e⟩ <;> rw [e] <;> nofun

theorem clearBuffer_ne_fault (sel : BufferSel) (s : State) (f : Fault) : clearBuffer sel s ≠ .fault f := by
  rcases clearBuffer_cases sel s with ⟨-, e⟩ | ⟨-, e⟩ <;> rw [e] <;> nofun

theorem selectMode_ne_fault (m : Value) (s : State) (f : Fault) : selectMode m s ≠ .fault f := by
  rcases selectMode_cases m s with ⟨-, -, e⟩ | ⟨-, -, e⟩ | ⟨-, e⟩ <;> rw [e]
  · nofun
  · exact clearBuffer_ne_fault _ _ f
  · nofun

theorem commitBuffer_ne_fault (sel : BufferSel) (s : State) (f : Fault) : commitBuffer sel s ≠ .fault f := by
  rcases commitBuffer_cases sel s with ⟨-, e⟩ | ⟨-, e⟩ <;> rw [e] <;> nofun

/-- A silent driver leaves a command waiting, and drawing needs the invariant alone (R65, R116). -/
theorem isNext_exec {s : State} (hs : s.inv) (i : Instr) : isNext (exec i s) = true := by
  cases i with
  | writePixel x y c =>
    rw [exec_writePixel]
    exact isNext_whenReady (isNext_finish (expand_ne_fault hs c _))
  | drawPixel x y c =>
    rw [exec_drawPixel]
    exact isNext_whenReady (isNext_finish (expand_ne_fault hs c _))
  | writeFastHLine | writeFastVLine | writeFillRect | writeLine =>
    exact isNext_whenReady (isNext_finish (expand_ne_fault hs _ _))
  | setDisplayMode m => exact isNext_whenReady (isNext_finish (assignMode_ne_fault m s))
  | selectDisplayMode m => exact isNext_whenReady (isNext_finish (selectMode_ne_fault m s))
  | showBuffer => exact isNext_whenReady (isNext_finish (commitBuffer_ne_fault _ s))
  | startWrite | endWrite | setRotation | getRotation | getDisplayMode | getWidth | getHeight =>
    exact isNext_whenReady rfl

/-- Settles O17: a machine that is not busy waits, answers a rejected word, or runs a command; accepting the word keeps
the invariant. -/
theorem noCommandStopsUnderTheInvariant : Obligations.NoCommandStopsUnderTheInvariant := by
  refine fun s hs => ⟨isNext_exec hs, fun hbusy => ?_⟩
  rcases step_cases s with ⟨hb, -⟩ | ⟨-, -, e⟩ | ⟨cw, rest, -, -, ⟨st, d, -, e⟩ | ⟨i, -, e⟩⟩
  · simp [hbusy] at hb
  · rw [e, isNext]
  · rw [e, isNext]
  · rw [e]
    exact isNext_exec ((State.portsOnly.accepted s rest).inv hs) i

/-! ### A rejected command has no effect -/

/-- The states in which a command that `s` is busy with can end, told apart by the response they add to those of `s`
(R90, R99, R116). That there is no other is `exec_ending`. -/
inductive Ending (s : State) : State → Prop where
  /-- None, and busy for good: the panel driver never completes the request. -/
  | stuck {u : State} (hu : u.responses = s.responses) : Ending s { u with busy := true }
  /-- OK, with the command's effect. -/
  | completed {u : State} (hu : u.responses = s.responses) (d : Value) : Ending s (u.respond .ok d)
  /-- PHYS_OUT_OF_RANGE, with what was written before it. -/
  | offPanel {u : State} (hu : u.responses = s.responses) (d : Value) : Ending s (u.respond .physOutOfRange d)
  /-- Any status, with no effect. -/
  | rejected (st : Status) (d : Value) : Ending s (s.respond st d)

/-- A status other than OK and PHYS_OUT_OF_RANGE leaves only the ending that has no effect. -/
theorem Ending.eq_respond {s t : State} (h : Ending s t) {r : Response} (hr : t.responses = s.responses ++ [r])
    (hok : r.status ≠ .ok) (hphys : r.status ≠ .physOutOfRange) : t = s.respond r.status r.data := by
  cases h with
  | stuck hu => simp [hu] at hr
  | completed hu d =>
    obtain rfl : ⟨.ok, d⟩ = r := by simpa [hu] using hr
    exact absurd rfl hok
  | offPanel hu d =>
    obtain rfl : ⟨.physOutOfRange, d⟩ = r := by simpa [hu] using hr
    exact absurd rfl hphys
  | rejected st d =>
    obtain rfl : ⟨st, d⟩ = r := by simpa using hr
    rfl

/-- No change of a command reaches the responses: only its end gives one (R50). -/
theorem CommandChange.responses {i : Instr} {s u : State} (h : CommandChange i s u) : u.responses = s.responses := by
  cases h with
  | drawn hi hu =>
    obtain ⟨hregisters, -, -⟩ := expand_drawnTo hu
    rw [hregisters]
  | unchanged | rotated | modeSet | modeSelected | committed => simp

/-- A body that raises before it writes, or raises PHYS_OUT_OF_RANGE, ends its command in one of the four ways. -/
theorem Effect.finish_ending {i : Instr} {s t : State} {e : Effect} (h : e.finish = .next t)
    (hchange : ∀ u, e.carried = some u → CommandChange i s u)
    (hraise : ∀ st d u, e = .raised st d u → st = .physOutOfRange ∨ u = s) : Ending s t := by
  rcases Effect.finish_next h with ⟨u, rfl, rfl⟩ | ⟨st, d, u, rfl, rfl⟩ | ⟨u, rfl, rfl⟩
  · exact .completed (hchange u rfl).responses _
  · rcases hraise st d u rfl with rfl | rfl
    · exact .offPanel (hchange u rfl).responses d
    · exact .rejected st d
  · exact .stuck (hchange u rfl).responses

/-- Drawing raises nothing but PHYS_OUT_OF_RANGE (R66, R77). -/
theorem expand_raised {c : Colour} {ps : List Pixel} {s u : State} {st : Status} {d : Value}
    (h : expand c ps s = .raised st d u) : st = .physOutOfRange := by
  rcases expand_cases c ps s with ⟨t, e⟩ | ⟨d', t, e⟩ | e <;> rw [e] at h <;> cases h
  rfl

/-- An invalid mode is raised before MODE is assigned (R58). -/
theorem assignMode_raised {m : Value} {s u : State} {st : Status} {d : Value} (h : assignMode m s = .raised st d u) :
    u = s := by
  rcases assignMode_cases m s with ⟨-, e⟩ | ⟨-, e⟩ <;> rw [e] at h <;> cases h
  rfl

/-- An invalid mode is raised before MODE is assigned and the buffer cleared (R59). -/
theorem selectMode_raised {m : Value} {s u : State} {st : Status} {d : Value} (h : selectMode m s = .raised st d u) :
    u = s := by
  rcases selectMode_cases m s with ⟨-, -, e⟩ | ⟨-, -, e⟩ | ⟨-, e⟩ <;> rw [e] at h
  · cases h
  · rcases clearBuffer_cases (bufferOfMode m) (s.withMode m) with ⟨-, e'⟩ | ⟨-, e'⟩ <;> rw [e'] at h <;> cases h
  · cases h
    rfl

/-- A commit raises nothing (R87, R116). -/
theorem commitBuffer_ne_raised (sel : BufferSel) (s : State) (st : Status) (d : Value) (u : State) :
    commitBuffer sel s ≠ .raised st d u := by
  rcases commitBuffer_cases sel s with ⟨-, e⟩ | ⟨-, e⟩ <;> rw [e] <;> nofun

theorem exec_ending {i : Instr} {s t : State} (h : exec i s = .next t) : Ending s t := by
  rcases exec_next h with ⟨-, rfl⟩ | ⟨-, ⟨c, ps, hi, hf⟩ | ⟨-, rfl⟩ | ⟨v, -, rfl⟩ | ⟨-, rfl⟩ | ⟨m, -, hf⟩ |
    ⟨m, -, hf⟩ | ⟨-, rfl⟩ | ⟨-, rfl⟩ | ⟨-, rfl⟩ | ⟨-, hf⟩⟩
  · exact .rejected _ _
  · exact Effect.finish_ending hf (fun _ hu => .drawn hi hu) fun _ _ _ e => .inl (expand_raised e)
  · exact .completed rfl _
  · exact .completed (State.withRotation_responses s _) _
  · exact .completed rfl _
  · exact Effect.finish_ending hf (fun _ hu => assignMode_change hu) fun _ _ _ e => .inr (assignMode_raised e)
  · exact Effect.finish_ending hf (fun _ hu => selectMode_change hu) fun _ _ _ e => .inr (selectMode_raised e)
  · exact .completed rfl _
  · exact .completed rfl _
  · exact .completed rfl _
  · exact Effect.finish_ending hf (fun _ hu => commitBuffer_change hu) fun _ _ _ e =>
      absurd e (commitBuffer_ne_raised _ s _ _ _)

/-- A step that accepts a command ends it, from the state that is busy with it (R23, R49). -/
theorem step_ending {s t : State} {cw : CommandWord} {rest : List CommandWord} (hbusy : s.busy = false)
    (hport : s.port = cw :: rest) (h : step s = .next t) : Ending { s with port := rest, busy := true } t := by
  rcases step_cases s with ⟨hb, -⟩ | ⟨-, hp, -⟩ | ⟨cw', rest', -, hp, hstep⟩
  · simp [hbusy] at hb
  · simp [hport] at hp
  · obtain ⟨-, rfl⟩ := List.cons.inj (hport.symm.trans hp)
    rcases hstep with ⟨st, d, -, e⟩ | ⟨i, -, e⟩ <;> rw [e] at h
    · cases h
      exact .rejected st d
    · exact exec_ending h

/-- Settles O18: of the endings of a command only the rejection carries such a status, and after the response the
machine is idle again. -/
theorem rejectedCommandHasNoEffect : Obligations.RejectedCommandHasNoEffect := by
  intro s t cw rest r hbusy hport h hr hok hphys
  rw [(step_ending hbusy hport h).eq_respond hr hok hphys, State.respond, hbusy]

/-! ### The observation port -/

theorem observeReg_of_idle {s : State} (h : s.busy = false) (r : Register) :
    observeReg r s = .value (s.register r) := by
  simp [observeReg, h]

theorem observeReg_of_busy {s : State} (h : s.busy = true) (r : Register) :
    observeReg r s = .refused .observedWhileBusy := by
  simp [observeReg, h]

theorem observeByte_of_ready {s : State} (h : s.busy = false) (hready : s.init = .ready) {sel : BufferSel} {i : Nat}
    (hi : i < s.bufferSize sel) : observeByte sel i s = .value (s.memRead sel i) := by
  simp [observeByte, h, hready, hi]

theorem observeByte_of_failed {s : State} (h : s.busy = false) (hfailed : s.init = .failed) (sel : BufferSel)
    (i : Nat) : observeByte sel i s = .fault .bufferHoldsNoValue := by
  simp [observeByte, h, hfailed]

theorem observeByte_of_busy {s : State} (h : s.busy = true) (sel : BufferSel) (i : Nat) :
    observeByte sel i s = .refused .observedWhileBusy := by
  simp [observeByte, h]

/-- INIT as the observation port reads it: READY = 1, FAILED = 0 (R19). -/
theorem State.register_init (s : State) : s.register .init = if s.init = .ready then 1#32 else 0#32 := by
  cases h : s.init <;> simp [State.register, InitState.bit, h]

/-- Settles O47: the registers by an idle read, INIT as its bit; the bytes by busy first and INIT second. -/
theorem observationReadsTheState : Obligations.ObservationReadsTheState := by
  refine fun s => ⟨fun hidle => ?_, fun hbusy => ⟨observeReg_of_busy hbusy, observeByte_of_busy hbusy⟩⟩
  exact ⟨observeReg_of_idle hidle .rot, observeReg_of_idle hidle .lw, observeReg_of_idle hidle .lh,
    observeReg_of_idle hidle .mode, by rw [observeReg_of_idle hidle, State.register_init],
    fun hready => ⟨fun _ hi => observeByte_of_ready hidle hready (sel := .mono) hi,
      fun _ hi => observeByte_of_ready hidle hready (sel := .gray) hi⟩,
    observeByte_of_failed hidle⟩

end Sys2Proof.Machine

/-! The statements on reset and hazards (70_reset_and_hazards.md): what the construction reset loads with either
allocation outcome, the wait of an idle machine, and the machine that a silent panel driver leaves busy for good. -/

namespace Sys2Proof.Machine

/-! ### What a reset loads -/

/-- Every byte of a buffer after reset is 0x00, whatever the clear fills are (R25, R107). -/
theorem read_resetBuffer {size i : Nat} (hi : i < size) : (resetBuffer size).read i = 0x00#8 :=
  Memory.read_filled 0x00#8 hi

/-- The mode that a reset loads, UNINIT, is allowed by either policy (R57, R107). -/
theorem validMode_resetMode (p : ModePolicy) : validMode p resetMode = true :=
  (validMode_iff p resetMode).mpr (.inr (.inl rfl))

theorem initAfterAllocation_eq_ready_iff (okMono okGray : Bool) :
    initAfterAllocation okMono okGray = .ready ↔ okMono = true ∧ okGray = true := by
  simp [initAfterAllocation]

theorem initAfterAllocation_eq_failed_iff (okMono okGray : Bool) :
    initAfterAllocation okMono okGray = .failed ↔ okMono = false ∨ okGray = false := by
  cases okMono <;> simp [initAfterAllocation]

/-- Settles O10: the dimensions are set from ROT, the buffers are canonical fills, and there is no event yet. -/
theorem resetSatisfiesTheInvariant : Obligations.ResetSatisfiesTheInvariant := by
  intro c okMono okGray hlegal
  have hdims : (State.resetWith c okMono okGray).dimsAgree := ⟨rfl, rfl⟩
  have hbuffers : (State.resetWith c okMono okGray).buffersWf := ⟨resetBuffer_wf _, resetBuffer_wf _⟩
  have hcommits : (State.resetWith c okMono okGray).commitsWf := by
    rw [State.commitsWf, State.resetWith_commits]
    nofun
  exact ⟨hlegal, hdims, hbuffers, validMode_resetMode _, hcommits⟩

/-- Settles O8: rotation 0 keeps the panel's dimensions in place, and legal ones fit their registers. -/
theorem resetLoadsItsValues : Obligations.ResetLoadsItsValues := by
  intro c hlegal s
  have hlw : s.lw.toNat = c.pw := Config.logicalWidth_toNat hlegal 0#2
  have hlh : s.lh.toNat = c.ph := Config.logicalHeight_toNat hlegal 0#2
  have hmode : s.mode.toInt = -1 := (toInt_eq_neg_one_iff s.mode).mpr rfl
  exact ⟨rfl, rfl, hlw, hlh, hmode, rfl, fun _ => read_resetBuffer, fun _ => read_resetBuffer, rfl, rfl⟩

/-- Settles O9: the allocation outcome reaches INIT and no other field. -/
theorem failedAllocationLeavesInitFailed : Obligations.FailedAllocationLeavesInitFailed := fun _ okMono okGray =>
  ⟨initAfterAllocation_eq_ready_iff okMono okGray, initAfterAllocation_eq_failed_iff okMono okGray, rfl⟩

/-! ### Waiting -/

/-- Settles O13: of everything that a step can do, only the wait has an empty port and an idle machine. -/
theorem idleMachineWaits : Obligations.IdleMachineWaits := by
  intro s hidle hempty
  rcases step_cases s with ⟨hbusy, -⟩ | ⟨-, -, hstep⟩ | ⟨cw, rest, -, hport, -⟩
  · simp [hidle] at hbusy
  · exact hstep
  · simp [hempty] at hport

/-! ### A driver that never completes -/

theorem commitBuffer_of_silent {s : State} (h : s.pdServes = some 0) (sel : BufferSel) :
    commitBuffer sel s = .waiting s := by
  rcases commitBuffer_cases sel s with ⟨hserves, -⟩ | ⟨-, e⟩
  · exact absurd h hserves
  · exact e

theorem clearBuffer_of_silent {s : State} (h : s.pdServes = some 0) (sel : BufferSel) :
    clearBuffer sel s = .waiting s := by
  rcases clearBuffer_cases sel s with ⟨hserves, -⟩ | ⟨-, e⟩
  · exact absurd h hserves
  · exact e

/-- A select of another mode writes MODE before the clear that it waits for (R59; log 6). -/
theorem selectMode_of_silent {s : State} {m : Value} (h : validMode s.cfg.modePolicy m = true) (hne : m ≠ s.mode)
    (hsilent : s.pdServes = some 0) : selectMode m s = .waiting (s.withMode m) := by
  have hclear : selectMode m s = clearBuffer (bufferOfMode m) (s.withMode m) := by
    simpa [h, hne] using selectMode_cases m s
  rw [hclear, clearBuffer_of_silent (by simpa using hsilent)]

theorem exec_showBuffer_of_silent {s : State} (hready : s.init = .ready) (hsilent : s.pdServes = some 0) :
    exec .showBuffer s = .next { s with busy := true } := by
  have hexec : exec .showBuffer s = (commitBuffer (bufferOfMode s.mode) s).finish := whenReady_of_ready hready _
  rw [hexec, commitBuffer_of_silent hsilent, Effect.finish_waiting]

theorem exec_selectDisplayMode_of_silent {s : State} {m : Value} (hready : s.init = .ready)
    (h : validMode s.cfg.modePolicy m = true) (hne : m ≠ s.mode) (hsilent : s.pdServes = some 0) :
    exec (.selectDisplayMode m) s = .next { s with mode := m, busy := true } := by
  rw [exec_selectDisplayMode_of_ready hready, selectMode_of_silent h hne hsilent, Effect.finish_waiting]
  rfl

/-- A busy machine is stuck: it accepts no command (R23, R116). -/
theorem step_of_busy {s : State} (h : s.busy = true) : step s = .fault .panelNeverCompletes := by
  rw [step, State.accept_stuck h]

/-- Settles O46: both commands wait for a request that is never completed, which leaves the machine busy. -/
theorem silentDriverLeavesTheMachineBusy : Obligations.SilentDriverLeavesTheMachineBusy :=
  ⟨fun _ => exec_showBuffer_of_silent,
    fun _ _ hready hsilent hne hvalid =>
      exec_selectDisplayMode_of_silent hready ((validMode_iff_toInt _ _).mpr hvalid) hne hsilent,
    fun _ => step_of_busy⟩

end Sys2Proof.Machine
